-- ==== Sys2Proof/Word.lean ====
section
/-! DEFINITION. The word types of the block: the command word (30_encoding.md R100), the byte of the streams and of the blob,
the 12-bit ROM word (R83). -/

namespace Sys2Proof

/-- A byte, 8 bits (00_scope.md R13). -/
abbrev Byte := BitVec 8

/-- A word of the WordRom, 12 bits: the document's `u12` (00_scope.md R12, 30_encoding.md R83). -/
abbrev RomWord := BitVec 12

/-- A command word, 32 bits (30_encoding.md R100). -/
abbrev CmdWord := BitVec 32

end Sys2Proof
end

