-- ==== Sys2Proof/Syntax.lean ====
section
/-! DEFINITION. The nine commands of the block, one constructor per row of the opcode map (30_encoding.md R105). Operands are plain
naturals "taken from the command word without extension, scaling or shifting" (R106); `WellFormed` bounds them. -/

namespace Sys2Proof

/-- A command of the block. -/
inductive Instr where
  /-- PACK, format L: `len` bytes of nibble-pair image follow on the input stream (40_romcodec.md R121). -/
  | pack (len : Nat)
  /-- UNPACK, format L: `len` bytes of packed image follow on the input stream (40_romcodec.md R122). -/
  | unpack (len : Nat)
  /-- SAVE, format N (41_statestore.md R143). -/
  | save
  /-- LOAD, format N (41_statestore.md R144). -/
  | load
  /-- SETPIXEL, format P: column `x`, row `y`, value `val` (42_compositor.md R171). -/
  | setPixel (x y : Nat) (val : Bool)
  /-- SETICON, format I: icon `i`, value `val` (42_compositor.md R172). -/
  | setIcon (i : Nat) (val : Bool)
  /-- RENDER, format N (42_compositor.md R173). -/
  | render
  /-- INVALIDATE, format N (42_compositor.md R174). -/
  | invalidate
  /-- HALT, format N (43_system.md R190). -/
  | halt
  deriving DecidableEq, Repr

end Sys2Proof
end

