-- ==== Sys2Proof/WellFormed.lean ====
section
/-! DEFINITION. Which commands a command word can hold: the operand widths of 30_encoding.md R102 to R106. An `x`, `y` or `i` that is
representable and outside the display is well formed; the meaning ignores it (R106, 20_memory.md R53). -/

namespace Sys2Proof

/-- Every operand fits its field: `len` in 28 bits, `x`, `y` and `i` in 8 bits (R106). -/
def Instr.wf : Instr → Bool
  | .pack len => decide (len < 2 ^ 28)
  | .unpack len => decide (len < 2 ^ 28)
  | .save => true
  | .load => true
  | .setPixel x y _ => decide (x < 2 ^ 8) && decide (y < 2 ^ 8)
  | .setIcon i _ => decide (i < 2 ^ 8)
  | .render => true
  | .invalidate => true
  | .halt => true

end Sys2Proof
end

