-- ==== Sys2Proof/Decode.lean ====
section
/-! DEFINITION. The decoder, total on every command word, and the encoder (30_encoding.md Part B, R100 to R107). -/

namespace Sys2Proof

/-- Why a command word is reserved (R107). Both reasons have one consequence, `IllegalCommand`. -/
inductive Reserved where
  /-- The opcode is 0x0 or 0xA to 0xF. -/
  | opcode
  /-- The opcode is defined and a bit its format marks "must be 0" is 1. -/
  | mustBeZero
  deriving DecidableEq, Repr

/-- `cw[lo + width - 1 : lo]` as a plain natural (00_scope.md R13). -/
def slice (cw : CmdWord) (lo width : Nat) : Nat := cw.toNat / 2 ^ lo % 2 ^ width

/-- Format N: `cw[27:0]` must be 0 (R101). -/
def decodeN (cw : CmdWord) (i : Instr) : Except Reserved Instr :=
  if slice cw 0 28 = 0 then .ok i else .error .mustBeZero

/-- Format P: `cw[27:17]` must be 0; `val`, `x`, `y` (R103). -/
def decodeP (cw : CmdWord) : Except Reserved Instr :=
  if slice cw 17 11 = 0 then .ok (.setPixel (slice cw 8 8) (slice cw 0 8) (decide (slice cw 16 1 = 1)))
  else .error .mustBeZero

/-- Format I: `cw[27:17]` and `cw[7:0]` must be 0; `val`, `i` (R104). -/
def decodeI (cw : CmdWord) : Except Reserved Instr :=
  if slice cw 17 11 = 0 ∧ slice cw 0 8 = 0 then .ok (.setIcon (slice cw 8 8) (decide (slice cw 16 1 = 1)))
  else .error .mustBeZero

/-- The command a command word stands for, by its opcode `cw[31:28]` (R100, R105), or why it is reserved (R107). -/
def decode (cw : CmdWord) : Except Reserved Instr :=
  match slice cw 28 4 with
  | 1 => .ok (.pack (slice cw 0 28))
  | 2 => .ok (.unpack (slice cw 0 28))
  | 3 => decodeN cw .save
  | 4 => decodeN cw .load
  | 5 => decodeP cw
  | 6 => decodeI cw
  | 7 => decodeN cw .render
  | 8 => decodeN cw .invalidate
  | 9 => decodeN cw .halt
  | _ => .error .opcode

/-- The opcode of a command (R105). -/
def Instr.opcode : Instr → Nat
  | .pack _ => 0x1
  | .unpack _ => 0x2
  | .save => 0x3
  | .load => 0x4
  | .setPixel _ _ _ => 0x5
  | .setIcon _ _ => 0x6
  | .render => 0x7
  | .invalidate => 0x8
  | .halt => 0x9

/-- The 28 operand bits `cw[27:0]` of a command, by its format (R101 to R104). -/
def Instr.operandBits : Instr → Nat
  | .pack len => len
  | .unpack len => len
  | .save => 0
  | .load => 0
  | .setPixel x y val => val.toNat * 2 ^ 16 + x * 2 ^ 8 + y
  | .setIcon i val => val.toNat * 2 ^ 16 + i * 2 ^ 8
  | .render => 0
  | .invalidate => 0
  | .halt => 0

/-- The command word of a command: opcode in bits 31:28, operands below (R100). -/
def encode (i : Instr) : CmdWord := BitVec.ofNat 32 (i.opcode * 2 ^ 28 + i.operandBits)

/-- The instruction the decoder reads from a word of `nbits` bits, numbered as opcode_table.json numbers them. A command is one
32-bit word (R100, R108), so a row of the table is the command word itself; bits at and above `nbits` are 0. -/
def decodeTableWord (nbits w : Nat) : Option Instr :=
  match decode (BitVec.ofNat 32 (w % 2 ^ nbits)) with
  | .ok i => some i
  | .error _ => none

end Sys2Proof
end

