-- ==== Sys2Proof/Config.lean ====
section
/-! DEFINITION. The parameters of a build (00_scope.md R11). A parameter the rule marks FIXED is a numeral; one it marks OPEN is a
field of `Build`. "A parameter marked OPEN is an argument the model takes": the machine's state carries its build, so a statement
about every state is a statement about every build, and the build of the reset state is made of opaque constants (log 2). -/

namespace Sys2Proof

/-- `MTX_H`, FIXED 16 (R11). -/
abbrev matrixHeight : Nat := 16

/-- `MTX_W`, FIXED 32 (R11). -/
abbrev matrixWidth : Nat := 32

/-- `N_TIMERS`, FIXED 9 (R11). -/
abbrev timerCount : Nat := 9

/-- What a build of the hardware fixes and the spec leaves OPEN. -/
structure Build where
  /-- `ICON_NUM` is 16 when true and 8 when false (R11: "one of 8 or 16"). -/
  sixteenIcons : Bool
  /-- `INT_SLOTS`, the number of interrupt-slot records in the persisted state (R11). -/
  intSlots : Nat
  /-- `MEM_IMAGE_BYTES`, the byte length of the memory image (R11). -/
  memImageBytes : Nat
  /-- `TIMESTAMP_HZ`, a duty of the host; the block never reads it (R11, 44_host_session.md R214). -/
  timestampHz : Nat
  /-- The variant of the host in which Help is reachable from `Paused` only (44_host_session.md R210). -/
  helpFromPaused : Bool
  /-- The host keeps the volume in 0..255 by clamping when true, by refusing the step when false (R209 leaves it open). -/
  volumeClamps : Bool
  deriving DecidableEq, Repr

/-- `ICON_NUM` (R11). -/
def Build.iconNum (b : Build) : Nat := if b.sixteenIcons then 16 else 8

/-- `STATE_BYTES` = 55 + 4 * `INT_SLOTS` + `MEM_IMAGE_BYTES` (R11, 30_encoding.md R94). -/
def Build.stateBytes (b : Build) : Nat := 55 + 4 * b.intSlots + b.memImageBytes

/-- `FB_LEN` = 512 + `ICON_NUM` (R11, 30_encoding.md R97). -/
def Build.fbLen (b : Build) : Nat := 512 + b.iconNum

namespace Config

/-- Free: 8 or 16 icons (U1). -/
opaque sixteenIcons : Bool

/-- Free: the number of interrupt slots (U2). -/
opaque intSlots : Nat

/-- Free: the size of the memory image (U3). -/
opaque memImageBytes : Nat

/-- Free: the timestamp base (U4). -/
opaque timestampHz : Nat

/-- Free: the Help variant (U6). -/
opaque helpFromPaused : Bool

/-- Free: how the volume keeps its bound (U19). -/
opaque volumeClamps : Bool

/-- The build of the reset state: nothing in Lean can evaluate any part of it. -/
def build : Build where
  sixteenIcons := sixteenIcons
  intSlots := intSlots
  memImageBytes := memImageBytes
  timestampHz := timestampHz
  helpFromPaused := helpFromPaused
  volumeClamps := volumeClamps

end Config

end Sys2Proof
end

