-- ==== Sys2Proof/Machine/State.lean ====
section
/-! DEFINITION. The state of the machine, all of it plain data (10_state.md): what the block owns, the core's record, the storage
medium's file, the parameters of the build, and the environment that presents commands. -/

namespace Sys2Proof.Machine

/-! ## Registers of the block -/

/-- `STATUS`, the status of the last accepted command (10_state.md R26), as an enumeration (60_exceptions.md R231, D6). Codes 8 to
15 are never produced (U17), so they have no constructor (DEDUCED, log 17). -/
inductive Status where
  /-- Code 0: the command completed. -/
  | ok
  /-- Code 1: "medium not present/mountable" (R234). -/
  | storageUnavailable
  /-- Code 2: "no persisted blob exists" (R235). -/
  | notFound
  /-- Code 3: a read returned short, or the accessor is unavailable (R236). -/
  | corruptState
  /-- Code 4: a write call reported short (R237). -/
  | writeFailure
  /-- Code 5, terminal: a length that is not a multiple (R238). -/
  | malformedRom
  /-- Code 6, terminal: the core issued HALT (R239). -/
  | coreHalt
  /-- Code 7: a reserved command word (R240). -/
  | illegalCommand
  deriving DecidableEq, Repr

/-- `FAULT`, the sticky register (10_state.md R27). Value 3 is never produced, so it has no constructor. -/
inductive FaultReg where
  /-- Value 0. -/
  | none
  /-- Value 1. -/
  | malformedRom
  /-- Value 2. -/
  | coreHalt
  deriving DecidableEq, Repr

/-- The display matrix: `MTX[y][x]`, row `y` in 0..15, column `x` in 0..31 (10_state.md R22). -/
abbrev Matrix := Vector (Vector Bool matrixWidth) matrixHeight

/-- An event of the output history (10_state.md R28). -/
inductive Event where
  /-- The whole result of one PACK. -/
  | packOut (bytes : List Byte)
  /-- The whole result of one UNPACK. -/
  | unpackOut (words : List RomWord)
  /-- One physical redraw, with the content of `FB` just written. -/
  | redraw (fb : List Bool)
  /-- The request to the core to recompute its hardware-visible state. -/
  | coreRefresh
  deriving DecidableEq, Repr

/-! ## The core's record -/

/-- A byte-addressed memory: (index, byte) pairs, indices strictly rising, no entry equal to `Memory.unlisted` (log 7). -/
abbrev Memory := List Host.Cell

/-- What an unlisted byte of a memory reads as: 0 (DESIGN CHOICE, log 7; 10_state.md R37 gives the image no reset content). -/
def Memory.unlisted : Byte := 0

/-- One interrupt-slot record, opaque values (10_state.md R35). -/
structure IntSlot where
  factor : BitVec 8
  mask : BitVec 8
  triggered : BitVec 1
  vector : BitVec 8
  deriving DecidableEq, Repr

/-- The core's live state record `CS` (10_state.md R30 to R37). The block never interprets a field. -/
structure CoreState where
  /-- `CS.PC`, never a program counter of the block (R21, R31). -/
  pc : BitVec 13
  x : BitVec 12
  y : BitVec 12
  a : BitVec 4
  b : BitVec 4
  np : BitVec 5
  sp : BitVec 8
  flags : BitVec 4
  /-- `CS.T[0]` to `CS.T[8]` (R32). -/
  timers : Vector (BitVec 32) timerCount
  ptEnable : BitVec 8
  ptData : BitVec 8
  ptReload : BitVec 8
  /-- `CS.CALL_DEPTH` (R34). -/
  callDepth : BitVec 32
  /-- `CS.INT[0]` to `CS.INT[INT_SLOTS-1]` (R35); its length is part of `CoreState.wf`. -/
  slots : List IntSlot
  /-- `CS.HALTED`, distinct from `FAULT` (R36). -/
  halted : BitVec 1
  /-- `CS.MEM`, bytes 0 to `MEM_IMAGE_BYTES`-1 (R37). -/
  mem : Memory
  deriving DecidableEq, Repr

/-- A field of one interrupt-slot record, in record order (R35). -/
inductive SlotField where
  | factor
  | mask
  | triggered
  | vector
  deriving DecidableEq, Repr

/-- A field of `CS`, the unit of an access through the state accessor (20_memory.md R55). -/
inductive Field where
  | pc
  | x
  | y
  | a
  | b
  | np
  | sp
  | flags
  | timer (j : Fin timerCount)
  | ptEnable
  | ptData
  | ptReload
  | callDepth
  | slot (k : Nat) (f : SlotField)
  | halted
  | mem (j : Nat)
  deriving DecidableEq, Repr

/-! ## The environment -/

/-- What the environment answers the command in hand (00_scope.md R15 `draw`): free values under no law (U13). -/
structure Draws where
  /-- `acc_ok`: the state accessor is available (10_state.md R38). -/
  accOk : Bool
  /-- `mount_ok`: the medium opens (20_memory.md R56). -/
  mountOk : Bool
  /-- `accepted`: how many bytes the medium accepts from SAVE (R58). -/
  accepted : Nat
  /-- `read_limit`: how many bytes the medium returns to LOAD at most (R59). -/
  readLimit : Nat
  deriving DecidableEq, Repr

/-- The host's six button lines (44_host_session.md R204); true is pressed. -/
structure Buttons where
  left : Bool
  middle : Bool
  right : Bool
  save : Bool
  pause : Bool
  help : Bool
  deriving DecidableEq, Repr

/-- The three gameplay levels forwarded to the core (R206). -/
structure Levels where
  left : Bool
  middle : Bool
  right : Bool
  deriving DecidableEq, Repr

/-- The states of the host's modal machine (R205). -/
inductive Mode where
  | running
  | paused
  | helpOverlay
  | saveInProgress
  deriving DecidableEq, Repr

/-- A session button of the host (R206). -/
inductive SessionButton where
  | save
  | pause
  | help
  deriving DecidableEq, Repr

/-- The order in which a tick serves session lines that rise together (open: log 14). -/
inductive ServiceOrder where
  | savePauseHelp
  | saveHelpPause
  | pauseSaveHelp
  | pauseHelpSave
  | helpSavePause
  | helpPauseSave
  deriving DecidableEq, Repr

/-- The action of a risen session line; a SAVE comes with the environment's answers to it. -/
inductive SessionAct where
  | save (draws : Draws)
  | pause
  | help
  deriving DecidableEq, Repr

/-- What one poll of the keys finds pressed while an overlay blocks the host (R209, R210), the Help line aside; which keys are volume
keys is open (U19). -/
inductive PollKey where
  | noKey
  | volumeUp
  | volumeDown
  | other
  deriving DecidableEq, Repr

/-- One act of the core inside a core step that the block can see (00_scope.md R9, 44_host_session.md R213). -/
inductive CoreAct where
  /-- The pixel-set callback. -/
  | setPixel (x y : BitVec 8) (val : Bool)
  /-- The icon-set callback. -/
  | setIcon (i : BitVec 8) (val : Bool)
  /-- The halt callback. -/
  | halt
  /-- The core's own work leaves this record. -/
  | record (cs : CoreState)
  deriving DecidableEq, Repr

/-- What the environment brings to one tick (R200). -/
structure Tick where
  /-- The raw lines sampled. -/
  keys : Buttons
  /-- The order in which the host serves session lines that rise together. -/
  order : ServiceOrder
  /-- The core steps of this tick, "some number of times" (R200): for each, what the core does in it. -/
  core : List (List CoreAct)
  /-- Whether the cadence asks for a RENDER in this tick (R202). -/
  render : Bool
  /-- The environment's answers to a SAVE of this tick. -/
  draws : Draws
  deriving DecidableEq, Repr

/-- An act of the host (44_host_session.md). -/
inductive HostAct where
  /-- Bring the system up from a ROM file, already packed or not; the core initialises its record to `init` (R262). -/
  | boot (rom : List Byte) (alreadyPacked : Bool) (init : CoreState) (draws : Draws)
  /-- Look at the result of the bring-up's LOAD, which has returned (R208, R262). -/
  | loadReturned
  /-- Begin a tick (R200 to R206). -/
  | tick (t : Tick)
  /-- Go on with the tick: the next session action, or the core and the display (R201). -/
  | proceed
  /-- Call the core's step function once, in which the core does this (R201). -/
  | coreStep (acts : List CoreAct) (draws : Draws)
  /-- Issue the RENDER the cadence asks for (R202). -/
  | renderDue (draws : Draws)
  /-- Look at the result of SAVE, which has returned (R207). -/
  | saveReturned
  /-- Poll the keys once while an overlay blocks the host; `help` is the Help line (R209, R210). -/
  | poll (key : PollKey) (help : Bool)
  deriving DecidableEq, Repr

/-- What the environment does next (log 1). One step takes one of these. None of them changes `FILE` by itself: 20_memory.md R60
keeps every other party off the medium while SAVE or LOAD runs, and leaves open what happens to `FILE` between commands. DESIGN
CHOICE, log 19: between commands nothing changes it. -/
inductive Stimulus where
  /-- A command word is presented, with its input stream and its draws (10_state.md R21, 20_memory.md R51). -/
  | command (cw : CmdWord) (stream : List Byte) (draws : Draws)
  /-- Reset is applied between commands (70_reset_and_hazards.md R260). -/
  | reset
  /-- Reset is applied while the command `cw` is in progress. `written` is none when that is before any removal of `FILE`, else
  how many bytes of a new blob had been written (R260). -/
  | resetDuring (cw : CmdWord) (draws : Draws) (written : Option Nat)
  /-- The core changes its record between commands (00_scope.md R9). -/
  | core (cs : CoreState)
  /-- The host acts. -/
  | host (act : HostAct)
  deriving DecidableEq, Repr

/-- The state of the InputController (R204 to R212), an agent of the environment. -/
structure Session where
  mode : Mode
  /-- The lines as the tick before the last sampled them. -/
  previous : Buttons
  /-- The lines as the last tick sampled them. -/
  current : Buttons
  /-- The rising edges the last tick found, for each of the six lines (R204, R206). -/
  edges : Buttons
  /-- The gameplay levels last forwarded to the core (R206). -/
  levels : Levels
  /-- The Help line as the last poll of an overlay found it, or the last tick when no poll has followed it (log 14). -/
  polledHelp : Bool
  /-- The MODEL's: the session actions that have risen and are not yet begun, next first (R207, R209, R210). -/
  agenda : List SessionAct
  /-- The MODEL's: the core steps and the render of the tick, held until every session action of it has ended (R201). -/
  held : List HostAct
  /-- The volume level, 0..255 (R209). -/
  volume : BitVec 8
  deriving DecidableEq, Repr

/-! ## The machine -/

/-- The state of the machine. -/
structure State where
  /-- The parameters of the build (00_scope.md R11); nothing changes them. -/
  build : Build
  /-- `MTX` (10_state.md R22). -/
  mtx : Matrix
  /-- `ICN`, `ICON_NUM` entries (R23). -/
  icn : List Bool
  /-- `DIRTY` (R24). -/
  dirty : Bool
  /-- `FB`, `FB_LEN` cells, or none while it holds no value: until the first redraw after reset (R25, log 5). -/
  fb : Option (List Bool)
  /-- `STATUS` (R26). -/
  status : Status
  /-- `FAULT` (R27). -/
  fault : FaultReg
  /-- The output history, oldest event first (R28). -/
  history : List Event
  /-- `STG`, the staging buffer of LOAD (R29; DESIGN CHOICE at reset, log 6). -/
  stg : List Byte
  /-- `CS`, the core's record (R30). -/
  cs : CoreState
  /-- `FILE`, none when absent (R39). -/
  file : Option (List Byte)
  /-- The MODEL's: the bytes of the input stream `IN` not yet read by the command in hand (20_memory.md R51). -/
  input : List Byte
  /-- The MODEL's: the draws of the command in hand. -/
  draws : Draws
  /-- The MODEL's: what the environment will do, next first. -/
  pending : List Stimulus
  /-- The host's modal machine (R40: not state of the block). -/
  session : Session
  deriving DecidableEq, Repr

/-- Why the machine stops. -/
inductive Fault where
  /-- Raised by PACK and UNPACK when the host has supplied fewer than `len` bytes: "the command never completes (the block
  waits), and a model gives that situation no step" (20_memory.md R51, U18 `stuck`). Safe. -/
  | streamStarved
  deriving DecidableEq, Repr

/-- Why the model gives a command no meaning. -/
inductive Refusal where
  /-- Raised by exec's arms for a command that has no meaning yet (none is left). Safe. -/
  | notModelled (mnemonic : String)
  deriving DecidableEq, Repr

/-! ## Reset values -/

/-- A slot record with every field 0. -/
def IntSlot.blank : IntSlot := ⟨0, 0, 0, 0⟩

/-- A record with every field 0 (DESIGN CHOICE, unsafe: log 4). -/
def CoreState.blank (b : Build) : CoreState where
  pc := 0
  x := 0
  y := 0
  a := 0
  b := 0
  np := 0
  sp := 0
  flags := 0
  timers := Vector.replicate timerCount 0
  ptEnable := 0
  ptData := 0
  ptReload := 0
  callDepth := 0
  slots := List.replicate b.intSlots IntSlot.blank
  halted := 0
  mem := []

/-- The matrix with every cell 0 (10_state.md R41). -/
def Matrix.clear : Matrix := Vector.replicate matrixHeight (Vector.replicate matrixWidth false)

/-- The host's session at bring-up: "`Running` is initial" (44_host_session.md R205); the rest is log 14. -/
def Session.initial : Session where
  mode := .running
  previous := ⟨false, false, false, false, false, false⟩
  current := ⟨false, false, false, false, false, false⟩
  edges := ⟨false, false, false, false, false, false⟩
  levels := ⟨false, false, false⟩
  polledHelp := false
  agenda := []
  held := []
  volume := 0

/-- The machine of build `b` right after reset (10_state.md R41), with a blank core, no file, and an environment that answers
favourably and presents nothing (logs 4, 8, 9, 10). -/
def State.resetOf (b : Build) : State where
  build := b
  mtx := Matrix.clear
  icn := List.replicate b.iconNum false
  dirty := true
  fb := none
  status := .ok
  fault := .none
  history := []
  stg := []
  cs := CoreState.blank b
  file := none
  input := []
  draws := ⟨true, true, b.stateBytes, b.stateBytes⟩
  pending := []
  session := Session.initial

/-- The machine right after reset, of a build nothing is known of (log 2). -/
def State.reset : State := State.resetOf Config.build

end Sys2Proof.Machine
end

