-- ==== Sys2Proof/Machine/Flags.lean ====
section
/-! DEFINITION. The block's status bits: the numeric codes of `STATUS` and `FAULT` (60_exceptions.md R231), which statuses are terminal
(R233), and the dirty flag (10_state.md R24). -/

namespace Sys2Proof.Machine

/-- The code `STATUS` holds (R231). -/
def Status.code : Status → BitVec 4
  | .ok => 0
  | .storageUnavailable => 1
  | .notFound => 2
  | .corruptState => 3
  | .writeFailure => 4
  | .malformedRom => 5
  | .coreHalt => 6
  | .illegalCommand => 7

/-- The value `FAULT` holds (10_state.md R27). -/
def FaultReg.code : FaultReg → BitVec 2
  | .none => 0
  | .malformedRom => 1
  | .coreHalt => 2

/-- What `FAULT` becomes when the status is raised over the value `f`: the matching value for the two terminal statuses, and
unchanged for the others (R231, R233). -/
def Status.latch : Status → FaultReg → FaultReg
  | .ok, f => f
  | .storageUnavailable, f => f
  | .notFound, f => f
  | .corruptState, f => f
  | .writeFailure, f => f
  | .malformedRom, _ => .malformedRom
  | .coreHalt, _ => .coreHalt
  | .illegalCommand, f => f

/-- "A dirty flag is set on any mutation" (R24). -/
def State.markDirty (s : State) : State := { s with dirty := true }

/-- "and cleared after a render" (R24). -/
def State.clearDirty (s : State) : State := { s with dirty := false }

end Sys2Proof.Machine
end

