-- ==== Sys2Proof/Machine/Operands.lean ====
section
/-! DEFINITION. The operand forms of the commands: the bounds of a pixel and of an icon (20_memory.md R53), cells of the matrix and
entries of the icon vector, and the input stream of PACK and UNPACK (R51). -/

namespace Sys2Proof.Machine

/-- A pixel address is in range: `0 <= x < 32` and `0 <= y < 16` (R53). -/
def inMatrix (x y : Nat) : Bool := decide (x < matrixWidth) && decide (y < matrixHeight)

/-- An icon index is in range: `0 <= i < ICON_NUM` (R53). -/
def inIcons (b : Build) (i : Nat) : Bool := decide (i < b.iconNum)

/-- `MTX[y][x]`; an address out of range has no cell, and reads as false (no command performs such a read, R53). -/
def Matrix.cell (m : Matrix) (x y : Nat) : Bool :=
  if h : x < matrixWidth ∧ y < matrixHeight then (m[y]'h.2)[x]'h.1 else false

/-- `MTX[y][x] <- val`; "an access with an address out of range is not performed" (R53). -/
def Matrix.setCell (m : Matrix) (x y : Nat) (val : Bool) : Matrix :=
  if h : x < matrixWidth ∧ y < matrixHeight then m.set y ((m[y]'h.2).set x val h.1) h.2 else m

/-- `ICN[i]`; an index out of range has no entry, and reads as false. -/
def iconAt (icn : List Bool) (i : Nat) : Bool := (icn[i]?).getD false

/-- The first `len` bytes of the input stream and what is left of it, or none while the host has supplied fewer (R51). -/
def takeStream (len : Nat) (input : List Byte) : Option (List Byte × List Byte) :=
  if input.length < len then none else some (input.take len, input.drop len)

end Sys2Proof.Machine
end

