-- ==== Sys2Proof/Machine/Ops.lean ====
section
/-! DEFINITION. The shared operations: command acceptance, completion, raising a status (which is what taking an exception is here),
reset (the only way back from a terminal status), events, the byte-addressed memory and byte sequences. -/

namespace Sys2Proof.Machine

/-! ## Completion, statuses, acceptance, reset -/

/-- `emit E` (00_scope.md R15): append `E` to the output history. -/
def State.emit (e : Event) (s : State) : State := { s with history := s.history ++ [e] }

/-- `done` (R15): the command completes with `STATUS <- OK`. -/
def State.complete (s : State) : State := { s with status := .ok }

/-- `raise S` (R15, 60_exceptions.md R243): `STATUS <- S`, and `FAULT` is latched when `S` is terminal; nothing else is saved, no
mode or mask changes, and control goes nowhere. -/
def State.raise (st : Status) (s : State) : State := { s with status := st, fault := st.latch s.fault }

/-- Command acceptance (43_system.md R192): while `FAULT` is not `NONE` every command word is discarded, and nothing changes. -/
def accept (body : State → Host.Outcome State Fault Refusal) (s : State) : Host.Outcome State Fault Refusal :=
  match s.fault with
  | .none => body s
  | .malformedRom => .next s
  | .coreHalt => .next s

/-- A reserved command word: `STATUS <- IllegalCommand` "and no other change of state, no event and no storage request"
(30_encoding.md R107). -/
def rejectReserved (s : State) : Host.Outcome State Fault Refusal :=
  accept (fun s => .next (s.raise .illegalCommand)) s

/-- Reset (70_reset_and_hazards.md R260): every piece of block-owned state takes the value of 10_state.md R41; `CS` and `FILE` are
not touched. It is the only exit from a terminal fault (R261). -/
def State.applyReset (s : State) : State :=
  { s with
    mtx := Matrix.clear
    icn := List.replicate s.build.iconNum false
    dirty := true
    fb := none
    status := .ok
    fault := .none
    history := []
    stg := [] }

/-- The environment presents a command: its input stream and its draws are the ones at hand. -/
def State.present (stream : List Byte) (draws : Draws) (s : State) : State :=
  { s with input := stream, draws := draws }

/-! ## Memory (log 7) -/

/-- The byte at index `a`. -/
def Memory.read : Memory → Nat → Byte
  | [], _ => Memory.unlisted
  | (a', b) :: rest, a => if a' = a then b else Memory.read rest a

/-- List the byte `b` at index `a`, in rising order. -/
def Memory.insert : Memory → Nat → Byte → Memory
  | [], a, b => [(a, b)]
  | (a', b') :: rest, a, b =>
    if a < a' then (a, b) :: (a', b') :: rest
    else if a = a' then (a, b) :: rest
    else (a', b') :: Memory.insert rest a b

/-- Unlist index `a`. -/
def Memory.erase : Memory → Nat → Memory
  | [], _ => []
  | (a', b') :: rest, a => if a = a' then rest else (a', b') :: Memory.erase rest a

/-- Write the byte `b` at index `a`; a byte equal to what an unlisted index reads as is unlisted. -/
def Memory.write (m : Memory) (a : Nat) (b : Byte) : Memory :=
  if b = Memory.unlisted then Memory.erase m a else Memory.insert m a b

/-- The canonical form: indices strictly rising, and no listed byte equal to what an unlisted index reads as. -/
def Memory.wf : Memory → Bool
  | [] => true
  | (a, b) :: rest => decide (b ≠ Memory.unlisted) && rest.all (fun c => decide (a < c.1)) && Memory.wf rest

/-- Every listed index is below `n`. -/
def Memory.below (n : Nat) (m : Memory) : Bool := m.all (fun c => decide (c.1 < n))

/-! ## Byte sequences (00_scope.md R14) -/

/-- `le_n(v)[j] = (v >> (8*j)) & 0xFF`. -/
def le (n v : Nat) : List Byte := (List.range n).map (fun j => BitVec.ofNat 8 (v >>> (8 * j)))

/-- `from_le(s)`, the sum over `j` of `s[j] << (8*j)`. -/
def fromLe : List Byte → Nat
  | [] => 0
  | b :: rest => b.toNat + 2 ^ 8 * fromLe rest

end Sys2Proof.Machine
end

