-- ==== Sys2Proof/Machine/DisplayCompositor.lean ====
section
/-! DEFINITION. DisplayCompositor: SETPIXEL, SETICON, RENDER, INVALIDATE (42_compositor.md), and the framebuffer layout
(30_encoding.md R97). -/

namespace Sys2Proof.Machine

/-- SETPIXEL once accepted (R171): in range, the one cell and the dirty flag; out of range, "nothing at all". -/
def pixelWrite (x y : Nat) (val : Bool) (s : State) : State :=
  if inMatrix x y then { s with mtx := s.mtx.setCell x y val }.markDirty else s

/-- SETPIXEL (R171). -/
def execSetPixel (x y : Nat) (val : Bool) (s : State) : Host.Outcome State Fault Refusal :=
  accept (fun s => .next (pixelWrite x y val s).complete) s

/-- SETICON once accepted (R172). -/
def iconWrite (i : Nat) (val : Bool) (s : State) : State :=
  if inIcons s.build i then { s with icn := s.icn.set i val }.markDirty else s

/-- SETICON (R172). -/
def execSetIcon (i : Nat) (val : Bool) (s : State) : Host.Outcome State Fault Refusal :=
  accept (fun s => .next (iconWrite i val s).complete) s

/-- The linear framebuffer content of a matrix and an icon vector: cell `32*y + x` holds matrix cell `(x, y)`, cell `512 + i` holds
icon `i` (30_encoding.md R97). -/
def framebuffer (b : Build) (m : Matrix) (icn : List Bool) : List Bool :=
  (List.range (matrixWidth * matrixHeight)).map (fun k => m.cell (k % matrixWidth) (k / matrixWidth))
  ++ (List.range b.iconNum).map (iconAt icn)

/-- One redraw (R173): `FB` is written whole, one event carries it, `DIRTY` is cleared. -/
def redraw (s : State) : State :=
  ({ s with fb := some (framebuffer s.build s.mtx s.icn) }.emit
    (.redraw (framebuffer s.build s.mtx s.icn))).clearDirty

/-- RENDER (R173): "no-op unless dirty". -/
def execRender (s : State) : Host.Outcome State Fault Refusal :=
  accept (fun s => .next (if s.dirty then redraw s else s).complete) s

/-- INVALIDATE (R174). -/
def execInvalidate (s : State) : Host.Outcome State Fault Refusal :=
  accept (fun s => .next s.markDirty.complete) s

end Sys2Proof.Machine
end

