-- ==== Sys2Proof/Machine/RomCodec.lean ====
section
/-! DEFINITION. RomCodec: PACK and UNPACK (40_romcodec.md), with the formats they convert between (30_encoding.md R80 to R84). -/

namespace Sys2Proof.Machine

/-- `b0 <- trunc_8((v1 << 4) | ((v2 >> 4) & 0xF))` (R121); an 8-bit shift drops the bits above bit 7. -/
def packB0 (v1 v2 : Byte) : Byte := (v1 <<< 4) ||| ((v2 >>> 4) &&& 0x0F#8)

/-- `b1 <- ((v2 & 0xF) << 4) | v3` (R121). The formula is applied literally: nothing masks `v3` (corner case c; UNVERIFIED on
invalid images, log 11). -/
def packB1 (v2 v3 : Byte) : Byte := ((v2 &&& 0x0F#8) <<< 4) ||| v3

/-- The packed image of a nibble-pair image, three bytes for every four (R121). -/
def pack : List Byte → List Byte
  | v1 :: v2 :: v3 :: v4 :: rest => packB0 v1 v2 :: packB1 v2 v3 :: v4 :: pack rest
  | _ => []

/-- `w0 <- (b0 << 4) | ((b1 >> 4) & 0xF)` (R122). -/
def unpackW0 (b0 b1 : Byte) : RomWord := (b0.zeroExtend 12 <<< 4) ||| ((b1.zeroExtend 12 >>> 4) &&& 0x00F#12)

/-- `w1 <- ((b1 & 0xF) << 8) | b2` (R122). -/
def unpackW1 (b1 b2 : Byte) : RomWord := ((b1.zeroExtend 12 &&& 0x00F#12) <<< 8) ||| b2.zeroExtend 12

/-- The WordRom of a packed image, two words for every three bytes (R122). -/
def unpack : List Byte → List RomWord
  | b0 :: b1 :: b2 :: rest => unpackW0 b0 b1 :: unpackW1 b1 b2 :: unpack rest
  | _ => []

/-- `((top & 0xF) << 8) | low`: the word a pair of nibble-pair bytes stands for (30_encoding.md R81). -/
def pairWord (top low : Byte) : RomWord := ((top.zeroExtend 12 &&& 0x00F#12) <<< 8) ||| low.zeroExtend 12

/-- `canon(x)`, the canonical 12-bit view of a nibble-pair image (R81). -/
def canon : List Byte → List RomWord
  | v1 :: v2 :: v3 :: v4 :: rest => pairWord v1 v2 :: pairWord v3 v4 :: canon rest
  | _ => []

/-- A valid nibble-pair image: whole groups, and every byte that carries a top nibble is below 16 (R80, 40_romcodec.md R123). -/
def validImage : List Byte → Bool
  | [] => true
  | v1 :: _ :: v3 :: _ :: rest => decide (v1.toNat < 16) && decide (v3.toNat < 16) && validImage rest
  | _ => false

/-- The one valid nibble-pair image that packs to a packed image (40_romcodec.md R125); no command computes it. -/
def nibblePairs : List Byte → List Byte
  | b0 :: b1 :: b2 :: rest =>
    (b0 >>> 4) :: (((b0 &&& 0x0F#8) <<< 4) ||| (b1 >>> 4)) :: (b1 &&& 0x0F#8) :: b2 :: nibblePairs rest
  | _ => []

/-- The shape of PACK and UNPACK (R121, R122): the length is checked "before any decode attempt"; then the whole stream is read and
the result given as one event, all or nothing (20_memory.md R51, R52). -/
def transcode (group len : Nat) (result : List Byte → Event) (s : State) : Host.Outcome State Fault Refusal :=
  if len % group ≠ 0 then .next (s.raise .malformedRom)
  else
    match takeStream len s.input with
    | none => .fault .streamStarved
    | some (bytes, left) => .next (({ s with input := left }.emit (result bytes)).complete)

/-- PACK (R121). -/
def execPack (len : Nat) (s : State) : Host.Outcome State Fault Refusal :=
  accept (transcode 4 len (fun bytes => .packOut (pack bytes))) s

/-- UNPACK (R122). -/
def execUnpack (len : Nat) (s : State) : Host.Outcome State Fault Refusal :=
  accept (transcode 3 len (fun bytes => .unpackOut (unpack bytes))) s

end Sys2Proof.Machine
end

