-- ==== Sys2Proof/Machine/Record.lean ====
section
/-! DEFINITION. The core's record as the block sees it: the state accessor (20_memory.md R55), the field table (30_encoding.md R91), and
the blob `ser` and `de` convert to and from (R90 to R96). -/

namespace Sys2Proof.Machine

/-! ## The field table -/

/-- The architectural width of a field in bits (30_encoding.md R91, 10_state.md R31 to R37). -/
def Field.width : Field → Nat
  | .pc => 13
  | .x => 12
  | .y => 12
  | .a => 4
  | .b => 4
  | .np => 5
  | .sp => 8
  | .flags => 4
  | .timer _ => 32
  | .ptEnable => 8
  | .ptData => 8
  | .ptReload => 8
  | .callDepth => 32
  | .slot _ .factor => 8
  | .slot _ .mask => 8
  | .slot _ .triggered => 1
  | .slot _ .vector => 8
  | .halted => 1
  | .mem _ => 8

/-- The bytes a field takes on the wire: `ceil(w / 8)`, "1 for `w` up to 8, 2 for `w` of 12 and 13, 4 for `w` of 32" (R92). -/
def Field.wireBytes (f : Field) : Nat := (f.width + 7) / 8

/-- The four fields of interrupt slot `k`, in record order (R93). -/
def slotFields (k : Nat) : List Field :=
  [.slot k .factor, .slot k .mask, .slot k .triggered, .slot k .vector]

/-- The fields of the record of build `b`, in record order (R91). -/
def recordFields (b : Build) : List Field :=
  [.pc, .x, .y, .a, .b, .np, .sp, .flags,
    .timer 0, .timer 1, .timer 2, .timer 3, .timer 4, .timer 5, .timer 6, .timer 7, .timer 8,
    .ptEnable, .ptData, .ptReload, .callDepth]
  ++ (List.range b.intSlots).flatMap slotFields
  ++ [.halted]
  ++ (List.range b.memImageBytes).map Field.mem

/-- The field is one of the record of build `b`: slot numbers below `INT_SLOTS`, memory indices below `MEM_IMAGE_BYTES`. -/
def Field.inRecord (b : Build) : Field → Prop
  | .slot k _ => k < b.intSlots
  | .mem j => j < b.memImageBytes
  | _ => True

/-! ## The state accessor -/

/-- One field of an interrupt slot. -/
def IntSlot.get (r : IntSlot) : SlotField → Nat
  | .factor => r.factor.toNat
  | .mask => r.mask.toNat
  | .triggered => r.triggered.toNat
  | .vector => r.vector.toNat

/-- One field of an interrupt slot made to hold the low bits of `v`. -/
def IntSlot.set (r : IntSlot) (f : SlotField) (v : Nat) : IntSlot :=
  match f with
  | .factor => { r with factor := BitVec.ofNat 8 v }
  | .mask => { r with mask := BitVec.ofNat 8 v }
  | .triggered => { r with triggered := BitVec.ofNat 1 v }
  | .vector => { r with vector := BitVec.ofNat 8 v }

/-- `AccGet(f)`: the current value of field `f` (R55). -/
def accGet (cs : CoreState) : Field → Nat
  | .pc => cs.pc.toNat
  | .x => cs.x.toNat
  | .y => cs.y.toNat
  | .a => cs.a.toNat
  | .b => cs.b.toNat
  | .np => cs.np.toNat
  | .sp => cs.sp.toNat
  | .flags => cs.flags.toNat
  | .timer j => (cs.timers[j]).toNat
  | .ptEnable => cs.ptEnable.toNat
  | .ptData => cs.ptData.toNat
  | .ptReload => cs.ptReload.toNat
  | .callDepth => cs.callDepth.toNat
  | .slot k f => ((cs.slots[k]?).getD IntSlot.blank).get f
  | .halted => cs.halted.toNat
  | .mem j => (Memory.read cs.mem j).toNat

/-- `AccSet(f, v)`: field `f` holds `v`, of which it has the low `w` bits only (R55, R92: `& (2^w - 1)`). -/
def accSet (cs : CoreState) (f : Field) (v : Nat) : CoreState :=
  match f with
  | .pc => { cs with pc := BitVec.ofNat 13 v }
  | .x => { cs with x := BitVec.ofNat 12 v }
  | .y => { cs with y := BitVec.ofNat 12 v }
  | .a => { cs with a := BitVec.ofNat 4 v }
  | .b => { cs with b := BitVec.ofNat 4 v }
  | .np => { cs with np := BitVec.ofNat 5 v }
  | .sp => { cs with sp := BitVec.ofNat 8 v }
  | .flags => { cs with flags := BitVec.ofNat 4 v }
  | .timer j => { cs with timers := cs.timers.set j (BitVec.ofNat 32 v) }
  | .ptEnable => { cs with ptEnable := BitVec.ofNat 8 v }
  | .ptData => { cs with ptData := BitVec.ofNat 8 v }
  | .ptReload => { cs with ptReload := BitVec.ofNat 8 v }
  | .callDepth => { cs with callDepth := BitVec.ofNat 32 v }
  | .slot k g => { cs with slots := cs.slots.modify k (fun r => r.set g v) }
  | .halted => { cs with halted := BitVec.ofNat 1 v }
  | .mem j => { cs with mem := Memory.write cs.mem j (BitVec.ofNat 8 v) }

/-! ## The blob -/

/-- The wire image of field `f` of a record: `le_c(v)`, the bits above the field's width 0 (R92). -/
def wireImage (cs : CoreState) (f : Field) : List Byte := le f.wireBytes (accGet cs f)

/-- `ser(CS)`: the wire images of the fields in record order, "with nothing before, between or after them" (R90, R96). -/
def ser (b : Build) (cs : CoreState) : List Byte := (recordFields b).flatMap (wireImage cs)

/-- Read the fields `fs` in order from the bytes `bytes` into the record `cs` (R92, R96). -/
def readFields : List Field → List Byte → CoreState → CoreState
  | [], _, cs => cs
  | f :: fs, bytes, cs =>
    readFields fs (bytes.drop f.wireBytes) (accSet cs f (fromLe (bytes.take f.wireBytes)))

/-- `de(s)`: the record whose every field is read from its offset (R96). -/
def de (b : Build) (bytes : List Byte) : CoreState := readFields (recordFields b) bytes (CoreState.blank b)

/-- `AccSet(f, r.f)` for each field of the record, in record order (41_statestore.md R144). -/
def commit (b : Build) (r cs : CoreState) : CoreState :=
  (recordFields b).foldl (fun cs f => accSet cs f (accGet r f)) cs

/-- Every field is there: `INT_SLOTS` slots, and a memory image of `MEM_IMAGE_BYTES` bytes in canonical form. The widths of the
other fields are in their types. "Valid" in the sense of 41_statestore.md R145. -/
def CoreState.wf (b : Build) (cs : CoreState) : Bool :=
  decide (cs.slots.length = b.intSlots) && Memory.wf cs.mem && Memory.below b.memImageBytes cs.mem

end Sys2Proof.Machine
end

