-- ==== Sys2Proof/Machine/StateStore.lean ====
section
/-! DEFINITION. StateStore: SAVE and LOAD (41_statestore.md), over the storage medium of 20_memory.md R56 to R60. The medium is released
before either command completes (R60), so no state holds it. -/

namespace Sys2Proof.Machine

/-- SAVE once accepted (R143), its tests in the order of 60_exceptions.md R242: accessor, open, write. Whatever the medium accepts,
no byte of an older blob survives, because `FILE` was removed first (20_memory.md R57, R58). -/
def saveState (s : State) : State :=
  if s.draws.accOk = false then s.raise .corruptState
  else if s.draws.mountOk = false then s.raise .storageUnavailable
  else if s.build.stateBytes ≤ s.draws.accepted then
    { s with file := some (ser s.build s.cs) }.complete
  else
    { s with file := some ((ser s.build s.cs).take s.draws.accepted) }.raise .writeFailure

/-- SAVE (R143). -/
def execSave (s : State) : Host.Outcome State Fault Refusal :=
  accept (fun s => .next (saveState s)) s

/-- `got = min(len(FILE), read_limit, STATE_BYTES)`, the number of bytes LOAD obtains (20_memory.md R59). -/
def bytesGot (b : Build) (readLimit : Nat) (blob : List Byte) : Nat :=
  min (min blob.length readLimit) b.stateBytes

/-- LOAD once the blob is found present (R144): it is read whole into the staging buffer, and committed to `CS` field by field
only after every check has passed. -/
def loadBlob (blob : List Byte) (s : State) : State :=
  let s' := { s with stg := blob.take (bytesGot s.build s.draws.readLimit blob) }
  if bytesGot s.build s.draws.readLimit blob < s.build.stateBytes then s'.raise .corruptState
  else if s.draws.accOk = false then s'.raise .corruptState
  else ({ s' with cs := commit s.build (de s.build s'.stg) s.cs }.emit .coreRefresh).complete

/-- LOAD once accepted (R144), its tests in the order of R242: open, presence, read length, accessor. -/
def loadState (s : State) : State :=
  if s.draws.mountOk = false then s.raise .storageUnavailable
  else
    match s.file with
    | none => s.raise .notFound
    | some blob => loadBlob blob s

/-- LOAD (R144). -/
def execLoad (s : State) : Host.Outcome State Fault Refusal :=
  accept (fun s => .next (loadState s)) s

end Sys2Proof.Machine
end

