-- ==== Sys2Proof/Machine/System.lean ====
section
/-! DEFINITION. The system command HALT (43_system.md R190). -/

namespace Sys2Proof.Machine

/-- HALT (R190): `raise CoreHalt`, terminal; the display state is frozen as it stood. -/
def execHalt (s : State) : Host.Outcome State Fault Refusal :=
  accept (fun s => .next (s.raise .coreHalt)) s

end Sys2Proof.Machine
end

