-- ==== Sys2Proof/Machine/Dispatch.lean ====
section
/-! DEFINITION. One arm per command of 30_encoding.md R105. -/

namespace Sys2Proof.Machine

def exec (i : Instr) (s : State) : Host.Outcome State Fault Refusal :=
  match i with
  | .pack len => Sys2Proof.Machine.execPack len s
  | .unpack len => Sys2Proof.Machine.execUnpack len s
  | .save => Sys2Proof.Machine.execSave s
  | .load => Sys2Proof.Machine.execLoad s
  | .setPixel x y val => Sys2Proof.Machine.execSetPixel x y val s
  | .setIcon n val => Sys2Proof.Machine.execSetIcon n val s
  | .render => Sys2Proof.Machine.execRender s
  | .invalidate => Sys2Proof.Machine.execInvalidate s
  | .halt => Sys2Proof.Machine.execHalt s

end Sys2Proof.Machine
end

