-- ==== Sys2Proof/Machine/HostSession.lean ====
section
/-! DEFINITION. The host, an agent of the environment (44_host_session.md; 00_scope.md R4 puts it outside the block): the bring-up order
(70_reset_and_hazards.md R262), the tick, and the InputController's modal machine. It acts on the block only by presenting commands:
each function here changes the session and puts stimuli before those still pending. What the rules leave open is an input (the
tick's `order`, `core` and `render`, the poll's key) or a parameter of the build; log 14. -/

namespace Sys2Proof.Machine

/-- The stimulus that presents the command `i`. -/
def presenting (i : Instr) (stream : List Byte) (d : Draws) : Stimulus := .command (encode i) stream d

/-- The environment will do `orders` before anything else still pending, a pending reset included: what one act of the host orders is
not interrupted. 70_reset_and_hazards.md R260 and R261 leave open when a reset comes relative to the host's acts: DESIGN CHOICE,
log 20. -/
def State.order (orders : List Stimulus) (s : State) : State := { s with pending := orders ++ s.pending }

/-- The host's session becomes `σ`. -/
def State.withSession (σ : Session) (s : State) : State := { s with session := σ }

/-- The host's modal machine goes to `m`. -/
def State.enter (m : Mode) (s : State) : State := s.withSession { s.session with mode := m }

/-! ## Bring-up -/

/-- The PACK and UNPACK of the bring-up (R262 steps 1 and 2), and whether the ROM passes their length checks. -/
def romOrders (rom : List Byte) (alreadyPacked : Bool) (d : Draws) : List Stimulus × Bool :=
  if alreadyPacked then ([presenting (.unpack rom.length) rom d], decide (rom.length % 3 = 0))
  else if rom.length % 4 = 0 then
    ([presenting (.pack rom.length) rom d, presenting (.unpack (pack rom).length) (pack rom) d], true)
  else ([presenting (.pack rom.length) rom d], false)

/-- What the host does after reset (R262 steps 1 to 4): ROM, core initialisation, LOAD and the look at its result; a malformed ROM
"halts before the core is ever initialized". A ROM longer than a command word can say is not brought up (DESIGN CHOICE, log 14). -/
def bootOrders (rom : List Byte) (alreadyPacked : Bool) (init : CoreState) (d : Draws) : List Stimulus :=
  if rom.length < 2 ^ 28 then
    if (romOrders rom alreadyPacked d).2 then
      (romOrders rom alreadyPacked d).1 ++ [.core init, presenting .load [] d, .host .loadReturned]
    else (romOrders rom alreadyPacked d).1
  else []

/-- Bring-up, which ends in `Running` (R262 step 5). -/
def hostBoot (rom : List Byte) (alreadyPacked : Bool) (init : CoreState) (d : Draws) (s : State) : State :=
  (s.withSession Session.initial).order (bootOrders rom alreadyPacked init d)

/-- The statuses of a LOAD that the host shows as an error (R208, R262 step 4); `NotFound` is "not an error". -/
def Status.shownAfterLoad : Status → Bool
  | .storageUnavailable => true
  | .corruptState => true
  | .ok => false
  | .notFound => false
  | .writeFailure => false
  | .malformedRom => false
  | .coreHalt => false
  | .illegalCommand => false

/-- LOAD has returned: the error message the host drew over the display, if any, is undone by INVALIDATE (70_reset_and_hazards.md
R272). R208 leaves open whether the host forces a redraw here: DESIGN CHOICE, log 18. -/
def hostLoadReturned (s : State) : State :=
  if s.status.shownAfterLoad then s.order [presenting .invalidate [] s.draws] else s

/-! ## The tick in `Running` -/

/-- The gameplay levels of a sample (R206). -/
def Buttons.levels (k : Buttons) : Levels := ⟨k.left, k.middle, k.right⟩

/-- One session line of a sample. -/
def Buttons.line (k : Buttons) : SessionButton → Bool
  | .save => k.save
  | .pause => k.pause
  | .help => k.help

/-- A rising edge of one line: "released to pressed observed between two consecutive samples" (R204). -/
def rising (before now : Bool) : Bool := !before && now

/-- The rising edges of all six lines between two samples (R204, R206). -/
def Buttons.rising (before now : Buttons) : Buttons where
  left := Machine.rising before.left now.left
  middle := Machine.rising before.middle now.middle
  right := Machine.rising before.right now.right
  save := Machine.rising before.save now.save
  pause := Machine.rising before.pause now.pause
  help := Machine.rising before.help now.help

/-- Sample the lines, once per tick, compute the edges of all six (R204, R206), and forward the gameplay levels to the core (R203,
R206). -/
def Session.sample (keys : Buttons) (σ : Session) : Session :=
  { σ with previous := σ.current, current := keys, edges := σ.current.rising keys, levels := keys.levels,
           polledHelp := keys.help }

/-- A session button acts in `Running` on its rising edge only (R206); Help not in the variant that has it in `Paused` only
(R210). -/
def Session.acts (build : Build) (σ : Session) (b : SessionButton) : Bool :=
  σ.edges.line b && !(build.helpFromPaused && decide (b = .help))

/-- The session lines in the order of service. -/
def ServiceOrder.lines : ServiceOrder → List SessionButton
  | .savePauseHelp => [.save, .pause, .help]
  | .saveHelpPause => [.save, .help, .pause]
  | .pauseSaveHelp => [.pause, .save, .help]
  | .pauseHelpSave => [.pause, .help, .save]
  | .helpSavePause => [.help, .save, .pause]
  | .helpPauseSave => [.help, .pause, .save]

/-- The action of a session line. -/
def SessionButton.act (d : Draws) : SessionButton → SessionAct
  | .save => .save d
  | .pause => .pause
  | .help => .help

/-- The actions of a tick's session edges: one for each line that acts (R206, R207, R209, R210). -/
def Tick.actions (build : Build) (t : Tick) (σ : Session) : List SessionAct :=
  (t.order.lines.filter (σ.acts build)).map (SessionButton.act t.draws)

/-- The rest of a tick: "step the core some number of times, conditionally render" (R200, R201, R202). -/
def Tick.work (t : Tick) : List HostAct :=
  t.core.map (fun acts => .coreStep acts t.draws) ++ (if t.render then [.renderDue t.draws] else [])

/-- The session after a tick has sampled `t.keys`: its session actions wait to be begun, and its rest waits for them (R201). -/
def Session.tick (build : Build) (t : Tick) (σ : Session) : Session :=
  { σ.sample t.keys with
    agenda := σ.agenda ++ t.actions build (σ.sample t.keys)
    held := σ.held ++ t.work }

/-- One tick begins: sample, compute the edges, forward the levels, and go on. A blocked host runs no tick (R212). -/
def hostTick (t : Tick) (s : State) : State :=
  match s.session.mode with
  | .running => (s.withSession (s.session.tick s.build t)).order [.host .proceed]
  | .paused => s
  | .helpOverlay => s
  | .saveInProgress => s

/-- Begin a session action: Save invokes SAVE at once (R207); Pause and Help block the host (R209, R210). -/
def beginAct (a : SessionAct) (s : State) : State :=
  match a with
  | .save d => (s.enter .saveInProgress).order [presenting .save [] d, .host .saveReturned]
  | .pause => s.enter .paused
  | .help => s.enter .helpOverlay

/-- The tick goes on: with the next session action, or, when all have ended, with the core steps and the render, suspended until
then (R201). -/
def hostProceed (s : State) : State :=
  match s.session.mode with
  | .running =>
    match s.session.agenda with
    | a :: rest => beginAct a (s.withSession { s.session with agenda := rest })
    | [] => (s.withSession { s.session with held := [] }).order (s.session.held.map Stimulus.host)
  | .paused => s
  | .helpOverlay => s
  | .saveInProgress => s

/-- What a core act is to the block: pixel-set is SETPIXEL, icon-set is SETICON, halt is HALT (R213). -/
def CoreAct.stimulus (d : Draws) : CoreAct → Stimulus
  | .setPixel x y val => presenting (.setPixel x.toNat y.toNat val) [] d
  | .setIcon i val => presenting (.setIcon i.toNat val) [] d
  | .halt => presenting .halt [] d
  | .record cs => .core cs

/-- Give stimuli in `Running` only: in the blocking states "the core receives no step calls" and nothing is rendered (R212). -/
def whileRunning (orders : List Stimulus) (s : State) : State :=
  match s.session.mode with
  | .running => s.order orders
  | .paused => s
  | .helpOverlay => s
  | .saveInProgress => s

/-- One call of the core's step function. -/
def hostCoreStep (acts : List CoreAct) (d : Draws) (s : State) : State :=
  whileRunning (acts.map (CoreAct.stimulus d)) s

/-- One RENDER of the cadence. -/
def hostRenderDue (d : Draws) (s : State) : State := whileRunning [presenting .render [] d] s

/-! ## The blocking states -/

/-- SAVE has returned: back to `Running` "unconditionally (success or failure is only surfaced visually)" (R207), where the tick goes
on; what the host drew over the display to surface it is undone by INVALIDATE (70_reset_and_hazards.md R272). R208 leaves open
whether the host forces a redraw here: DESIGN CHOICE, log 14. -/
def hostSaveReturned (s : State) : State :=
  match s.session.mode with
  | .saveInProgress => (s.enter .running).order [presenting .invalidate [] s.draws, .host .proceed]
  | .running => s
  | .paused => s
  | .helpOverlay => s

/-- Resume: back to `Running` and force a full redraw, INVALIDATE then RENDER (R209); then the tick goes on. -/
def hostResume (s : State) : State :=
  (s.enter .running).order [presenting .invalidate [] s.draws, presenting .render [] s.draws, .host .proceed]

/-- The volume one step of 10 up, "bounded 0–255" by the build's way of keeping the bound (R209). -/
def volumeRaised (clamps : Bool) (v : BitVec 8) : BitVec 8 :=
  if v.toNat + 10 ≤ 255 then v + 10#8 else if clamps then 255#8 else v

/-- The volume one step of 10 down. -/
def volumeLowered (clamps : Bool) (v : BitVec 8) : BitVec 8 :=
  if 10 ≤ v.toNat then v - 10#8 else if clamps then 0#8 else v

/-- The host's volume level becomes `v`. -/
def State.setVolume (v : BitVec 8) (s : State) : State := s.withSession { s.session with volume := v }

/-- The Help line as a poll has just found it. -/
def State.pollHelpLine (help : Bool) (s : State) : State := s.withSession { s.session with polledHelp := help }

/-- A volume key found by a poll in `Paused` adjusts the level (R209). -/
def adjustVolume (key : PollKey) (s : State) : State :=
  match key with
  | .volumeUp => s.setVolume (volumeRaised s.build.volumeClamps s.session.volume)
  | .volumeDown => s.setVolume (volumeLowered s.build.volumeClamps s.session.volume)
  | .noKey => s
  | .other => s

/-- A poll in `Paused`: a volume key adjusts the level; a rising edge on Help opens the overlay in the variant that has it there
(R210) and is a non-volume key in the other; "any non-volume key" resumes (R209). Help held since an earlier poll is neither
(R211). What one poll does that finds Help risen together with another key R209 and R210 leave open. DESIGN CHOICE, log 14: a volume
key acts as well; another non-volume key is dropped, so that in the variant with Help here the overlay opens and nothing resumes. -/
def pollPaused (key : PollKey) (helpRose : Bool) (s : State) : State :=
  if helpRose then
    if s.build.helpFromPaused then (adjustVolume key s).enter .helpOverlay else hostResume (adjustVolume key s)
  else if key = .other then hostResume s
  else adjustVolume key s

/-- A poll in `HelpOverlay`: "block until any key press, then return to `Paused`/`Running`" by the variant (R210); on the way to
`Running` INVALIDATE makes the next RENDER redraw (R272; DESIGN CHOICE, log 14), and the tick goes on. -/
def pollOverlay (key : PollKey) (helpRose : Bool) (s : State) : State :=
  if key = .noKey ∧ helpRose = false then s
  else if s.build.helpFromPaused then s.enter .paused
  else (s.enter .running).order [presenting .invalidate [] s.draws, .host .proceed]

/-- One poll of the keys by a blocked host; in `Running` and `SaveInProgress` nothing polls. An edge on Help is one between two
consecutive polls (DESIGN CHOICE, log 14: no tick runs here, R212). -/
def hostPoll (key : PollKey) (help : Bool) (s : State) : State :=
  match s.session.mode with
  | .paused => pollPaused key (rising s.session.polledHelp help) (s.pollHelpLine help)
  | .helpOverlay => pollOverlay key (rising s.session.polledHelp help) (s.pollHelpLine help)
  | .running => s
  | .saveInProgress => s

/-! ## One act of the host -/

/-- An act of a host that has not stopped. -/
def hostDo (a : HostAct) (s : State) : State :=
  match a with
  | .boot rom alreadyPacked init d => hostBoot rom alreadyPacked init d s
  | .loadReturned => hostLoadReturned s
  | .tick t => hostTick t s
  | .proceed => hostProceed s
  | .coreStep acts d => hostCoreStep acts d s
  | .renderDue d => hostRenderDue d s
  | .saveReturned => hostSaveReturned s
  | .poll key help => hostPoll key help s

/-- An act of the host: after a terminal fault it "stops ticking and issues nothing more" (R215), the rest of the tick in which the
core halted included. -/
def hostAct (a : HostAct) (s : State) : State :=
  match s.fault with
  | .none => hostDo a s
  | .malformedRom => s
  | .coreHalt => s

end Sys2Proof.Machine
end

