-- ==== Sys2Proof/Machine/Environment.lean ====
section
/-! DEFINITION. What one stimulus of the environment does to the machine (log 1): a presented command word is decoded and executed to
completion (10_state.md R21), reset is applied, an agent outside the block acts. -/

namespace Sys2Proof.Machine

/-- A command word is presented: the block decodes it and runs its meaning, or rejects it as reserved. Discarding while `FAULT` is
set is the first thing either does (60_exceptions.md R242). -/
def runCommand (cw : CmdWord) (stream : List Byte) (d : Draws) (s : State) : Host.Outcome State Fault Refusal :=
  match decode cw with
  | .ok i => exec i (s.present stream d)
  | .error _ => rejectReserved (s.present stream d)

/-- What a command that a reset abandons has done to `FILE` (70_reset_and_hazards.md R260): a SAVE past its removal step leaves a
prefix of the new blob, as long as the medium had taken; any other command has done nothing yet (DEDUCED, log 13). -/
def abandon (cw : CmdWord) (d : Draws) (written : Option Nat) (s : State) : State :=
  match decode cw, written, s.fault, d.accOk, d.mountOk with
  | .ok .save, some n, .none, true, true =>
    { s with file := some ((ser s.build s.cs).take (min n d.accepted)) }
  | _, _, _, _, _ => s

/-- One stimulus taken. -/
def respond (st : Stimulus) (s : State) : Host.Outcome State Fault Refusal :=
  match st with
  | .command cw stream d => runCommand cw stream d s
  | .reset => .next s.applyReset
  | .resetDuring cw d written => .next (abandon cw d written s).applyReset
  | .core cs => .next { s with cs := cs }
  | .host a => .next (hostAct a s)

/-- The next stimulus is taken; with none pending the block waits for the next command, and nothing changes (10_state.md R21,
00_scope.md R7). -/
def takeStimulus (s : State) : Host.Outcome State Fault Refusal :=
  match s.pending with
  | [] => .next s
  | st :: rest => respond st { s with pending := rest }

end Sys2Proof.Machine
end

