-- ==== Sys2Proof/Machine/Step.lean ====
section
/-! DEFINITION. The one step of the machine, and the placing of a command word where the step takes its next command from. -/

namespace Sys2Proof.Machine

/-- One step: the machine takes the next stimulus of its environment. Every command is one atomic step (70_reset_and_hazards.md
R280). -/
def step (s : State) : Host.Outcome State Fault Refusal := takeStimulus s

/-- `s` with the command word `w` of `nbits` bits presented next (log 1), with the input stream and the draws that `s` has at hand.
A command is one 32-bit word; bits at and above `nbits` are 0. -/
def State.withFetchWord (s : State) (nbits w : Nat) : State :=
  { s with pending := .command (BitVec.ofNat 32 (w % 2 ^ nbits)) s.input s.draws :: s.pending }

end Sys2Proof.Machine
end

