-- ==== Sys2Proof/Safety.lean ====
section
/-! DEFINITION. What claims are stated in terms of: good states (70_reset_and_hazards.md R281), the well-formedness of a state, the
dirty-flag invariant (42_compositor.md R177), and runs. -/

namespace Sys2Proof.Machine

/-- "Its final state is good only if `FAULT` = `NONE`" (R281). -/
def State.good (s : State) : Bool := decide (s.fault = .none)

/-- A core act whose record, if it is one, has every field of the build. -/
def CoreAct.wf (b : Build) : CoreAct → Bool
  | .record cs => cs.wf b
  | .setPixel _ _ _ => true
  | .setIcon _ _ => true
  | .halt => true

/-- Every record of the core that an act of the host brings has every field of the build (00_scope.md R9: "values of the stated
widths"). -/
def HostAct.wf (b : Build) : HostAct → Bool
  | .boot _ _ init _ => init.wf b
  | .tick t => t.core.all (fun acts => acts.all (CoreAct.wf b))
  | .coreStep acts _ => acts.all (CoreAct.wf b)
  | .loadReturned => true
  | .proceed => true
  | .renderDue _ => true
  | .saveReturned => true
  | .poll _ _ => true

/-- Every record of the core that the stimulus brings has every field of the build. -/
def Stimulus.wf (b : Build) : Stimulus → Bool
  | .core cs => cs.wf b
  | .host a => a.wf b
  | .command _ _ _ => true
  | .reset => true
  | .resetDuring _ _ _ => true

/-- What a tick holds brings only such records, and in the variant of the host with Help in `Paused` only, no tick serves Help
(44_host_session.md R210). -/
def Session.wf (b : Build) (σ : Session) : Bool :=
  σ.held.all (HostAct.wf b) && !(b.helpFromPaused && decide (SessionAct.help ∈ σ.agenda))

/-- Every list of the state has the length the build gives it, the memory image is in canonical form, the stimuli still to come
bring only such records, and the session is well formed. -/
def State.wf (s : State) : Bool :=
  decide (s.icn.length = s.build.iconNum)
  && (match s.fb with
      | none => true
      | some cells => decide (cells.length = s.build.fbLen))
  && decide (s.stg.length ≤ s.build.stateBytes)
  && s.cs.wf s.build
  && s.pending.all (Stimulus.wf s.build)
  && s.session.wf s.build

/-- The dirty-flag invariant (R177): with `DIRTY` = 0, `FB` holds what `MTX` and `ICN` hold. -/
def State.fresh (s : State) : Prop :=
  s.dirty = false → s.fb = some (framebuffer s.build s.mtx s.icn)

/-- The number of `Redraw` events of a history. -/
def redraws (h : List Event) : Nat :=
  (h.filter (fun e => match e with
    | .redraw _ => true
    | .packOut _ => false
    | .unpackOut _ => false
    | .coreRefresh => false)).length

/-- The commands `is` executed one after another, each to completion (10_state.md R21, 20_memory.md R70). -/
def execAll : List Instr → State → Host.Outcome State Fault Refusal
  | [], s => .next s
  | i :: rest, s =>
    match exec i s with
    | .next t => execAll rest t
    | .fault r => .fault r
    | .refused r => .refused r

/-- The commands that mark the display dirty (R175): an in-range SETPIXEL, an in-range SETICON, INVALIDATE. -/
def marksDirty (b : Build) : Instr → Bool
  | .setPixel x y _ => inMatrix x y
  | .setIcon i _ => inIcons b i
  | .invalidate => true
  | .pack _ => false
  | .unpack _ => false
  | .save => false
  | .load => false
  | .render => false
  | .halt => false

/-- The number of RENDER commands of a sequence. -/
def renders (is : List Instr) : Nat := (is.filter (fun i => decide (i = .render))).length

end Sys2Proof.Machine
end

