-- ==== Sys2Proof/Certificates/Slice0/Obligations.lean ====
section
/-! DEFINITION. The statements for the provers. Each docstring names the rule of spec/ it formalises. -/

namespace Sys2Proof.Machine

/-! ## Words the statements use -/

/-- Byte `k` of a sequence, as a natural (0 past its end). -/
def byteAt (l : List Byte) (k : Nat) : Nat := ((l[k]?).getD 0).toNat

/-- Word `k` of a WordRom, as a natural (0 past its end). -/
def wordAt (l : List RomWord) (k : Nat) : Nat := ((l[k]?).getD 0).toNat

/-- A reserved command word, bit by bit (30_encoding.md R107): the opcode is 0x0 or 0xA to 0xF, or it is defined and a bit that its
format marks "must be 0" (R101, R103, R104) is 1. -/
def ReservedWord (cw : CmdWord) : Prop :=
  cw.toNat / 2 ^ 28 = 0 ∨ 10 ≤ cw.toNat / 2 ^ 28 ∨
  (cw.toNat / 2 ^ 28 ∈ [3, 4, 7, 8, 9] ∧ ∃ k, k < 28 ∧ cw.getLsbD k = true) ∨
  (cw.toNat / 2 ^ 28 = 5 ∧ ∃ k, 17 ≤ k ∧ k ≤ 27 ∧ cw.getLsbD k = true) ∨
  (cw.toNat / 2 ^ 28 = 6 ∧ ∃ k, (k ≤ 7 ∨ (17 ≤ k ∧ k ≤ 27)) ∧ cw.getLsbD k = true)

/-- The command word with this opcode in bits 31:28 and these bits below decodes to `i` (30_encoding.md R100 to R105). -/
def spells (opcode bits : Nat) (i : Instr) : Prop := decode (BitVec.ofNat 32 (opcode * 2 ^ 28 + bits)) = .ok i

/-- The bit-width column of the field table (30_encoding.md R91). -/
def tableWidth : Field → Nat
  | .pc => 13
  | .x => 12
  | .y => 12
  | .a => 4
  | .b => 4
  | .np => 5
  | .sp => 8
  | .flags => 4
  | .timer _ => 32
  | .ptEnable => 8
  | .ptData => 8
  | .ptReload => 8
  | .callDepth => 32
  | .slot _ .triggered => 1
  | .slot _ .factor => 8
  | .slot _ .mask => 8
  | .slot _ .vector => 8
  | .halted => 1
  | .mem _ => 8

/-- The order column of the field table (30_encoding.md R91), for `n` interrupt slots. -/
def tableOrder (n : Nat) : Field → Nat
  | .pc => 0
  | .x => 1
  | .y => 2
  | .a => 3
  | .b => 4
  | .np => 5
  | .sp => 6
  | .flags => 7
  | .timer j => 8 + j
  | .ptEnable => 17
  | .ptData => 18
  | .ptReload => 19
  | .callDepth => 20
  | .slot k .factor => 21 + 4 * k
  | .slot k .mask => 22 + 4 * k
  | .slot k .triggered => 23 + 4 * k
  | .slot k .vector => 24 + 4 * k
  | .halted => 21 + 4 * n
  | .mem j => 22 + 4 * n + j

/-- The wire-bytes column of the field table (R91). -/
def tableWire : Field → Nat
  | .pc => 2
  | .x => 2
  | .y => 2
  | .timer _ => 4
  | .callDepth => 4
  | .a => 1
  | .b => 1
  | .np => 1
  | .sp => 1
  | .flags => 1
  | .ptEnable => 1
  | .ptData => 1
  | .ptReload => 1
  | .slot _ _ => 1
  | .halted => 1
  | .mem _ => 1

/-- The offset column of the field table (R91), for `n` interrupt slots. -/
def tableOffset (n : Nat) : Field → Nat
  | .pc => 0
  | .x => 2
  | .y => 4
  | .a => 6
  | .b => 7
  | .np => 8
  | .sp => 9
  | .flags => 10
  | .timer j => 11 + 4 * j
  | .ptEnable => 47
  | .ptData => 48
  | .ptReload => 49
  | .callDepth => 50
  | .slot k .factor => 54 + 4 * k
  | .slot k .mask => 55 + 4 * k
  | .slot k .triggered => 56 + 4 * k
  | .slot k .vector => 57 + 4 * k
  | .halted => 54 + 4 * n
  | .mem j => 55 + 4 * n + j

/-- The bytes of `blob` at the offset of field `f`, as many as its wire image has. -/
def fieldBytes (b : Build) (blob : List Byte) (f : Field) : List Byte :=
  (blob.drop (tableOffset b.intSlots f)).take (tableWire f)

/-- The draws of a SAVE that the accessor and the medium let succeed, on build `b` (41_statestore.md R145). -/
def saveSucceeds (b : Build) (d : Draws) : Prop := d.accOk = true ∧ d.mountOk = true ∧ b.stateBytes ≤ d.accepted

/-- The draws of a LOAD that the accessor and the medium let succeed, on build `b` (R145). -/
def loadSucceeds (b : Build) (d : Draws) : Prop := d.accOk = true ∧ d.mountOk = true ∧ b.stateBytes ≤ d.readLimit

/-- The dirty-flag invariant with its history clause (42_compositor.md R177): with `DIRTY` = 0, at least one redraw has happened since
reset, and `FB` agrees with `MTX` and `ICN` in every cell. -/
def DisplayInvariant (s : State) : Prop :=
  s.dirty = false → ∃ cells, s.fb = some cells ∧ Event.redraw cells ∈ s.history ∧
    (∀ x y, x < 32 → y < 16 → cells[32 * y + x]? = some (s.mtx.cell x y)) ∧
    (∀ i, i < s.build.iconNum → cells[512 + i]? = some (iconAt s.icn i))

/-- The cells a `Redraw` event carries; the other events carry none. -/
def redrawCells : Event → Option (List Bool)
  | .redraw cells => some cells
  | .packOut _ => none
  | .unpackOut _ => none
  | .coreRefresh => none

/-- What the last redraw of a history shows, or none when it holds no redraw. -/
def lastRedraw (h : List Event) : Option (List Bool) := (h.filterMap redrawCells).getLast?

/-- `FAULT` and `STATUS` agree: `FAULT` is set exactly when `STATUS` holds the matching terminal code (60_exceptions.md R231, R233). -/
def FaultMirrorsStatus (s : State) : Prop :=
  (s.fault = .malformedRom ↔ s.status = .malformedRom) ∧ (s.fault = .coreHalt ↔ s.status = .coreHalt)

/-- The stimulus applies reset, between commands or in the middle of one. -/
def Stimulus.isReset : Stimulus → Bool
  | .reset => true
  | .resetDuring _ _ _ => true
  | .command _ _ _ => false
  | .core _ => false
  | .host _ => false

/-- The stimulus presents a command word. -/
def Stimulus.isCommand : Stimulus → Bool
  | .command _ _ _ => true
  | .reset => false
  | .resetDuring _ _ _ => false
  | .core _ => false
  | .host _ => false

end Sys2Proof.Machine

open Sys2Proof Sys2Proof.Machine

/-! ## Encoding (30_encoding.md Part B) -/

/-- Decoding the word of a well-formed command gives the command back, at every operand value the encoding admits (R100 to R106). -/
def Obligations.DecodeOfEncodeIsIdentity : Prop :=
  ∀ i : Instr, i.wf = true → decode (encode i) = .ok i

/-- Every command word that decodes is the encoding of the command it decodes to, which is well formed: no bit of an accepted word
is dropped, and "no two rows match the same word" (R105). -/
def Obligations.EncodeOfDecodeIsIdentity : Prop :=
  ∀ (cw : CmdWord) (i : Instr), decode cw = .ok i → encode i = cw ∧ i.wf = true

/-- The decoder accepts exactly the words that are not reserved (R107, R105). -/
def Obligations.DecoderAcceptsExactlyUnreservedWords : Prop :=
  ∀ cw : CmdWord, (∃ i, decode cw = .ok i) ↔ ¬ ReservedWord cw

/-- The example words of R109 decode to the commands the table writes beside them. -/
def Obligations.ExampleWordsDecodeAsWritten : Prop :=
  decode 0x10000004 = .ok (.pack 4) ∧ decode 0x20000003 = .ok (.unpack 3) ∧
  decode 0x30000000 = .ok .save ∧ decode 0x40000000 = .ok .load ∧
  decode 0x50010302 = .ok (.setPixel 3 2 true) ∧ decode 0x60010700 = .ok (.setIcon 7 true) ∧
  decode 0x70000000 = .ok .render ∧ decode 0x80000000 = .ok .invalidate ∧ decode 0x90000000 = .ok .halt

/-! ## The step -/

/-- When the next thing presented is a command word that decodes to `i`, the step is `exec i` at the state that has taken it off the
queue and has its stream and draws at hand. -/
def Obligations.StepRunsDecodedCommand : Prop :=
  ∀ (s : State) (cw : CmdWord) (stream : List Byte) (d : Draws) (rest : List Stimulus) (i : Instr),
    s.pending = .command cw stream d :: rest → decode cw = .ok i →
    step s = exec i { s with pending := rest, input := stream, draws := d }

/-- A reserved command word (R107): `IllegalCommand`, code 7, and no other change of state while `FAULT` is `NONE`; discarded, with
no change at all, while it is not. (The queue, the stream and the draws are the model's own environment.) -/
def Obligations.ReservedWordIsIllegalCommand : Prop :=
  ∀ (s : State) (cw : CmdWord) (stream : List Byte) (d : Draws) (rest : List Stimulus),
    s.pending = .command cw stream d :: rest → ReservedWord cw →
    step s = .next { s with pending := rest, input := stream, draws := d,
                            status := if s.fault = .none then .illegalCommand else s.status } ∧
    Status.illegalCommand.code = 7

/-- The model's choice (log 1): with nothing presented the block waits, and the step changes nothing (R7, R21). -/
def Obligations.NothingPresentedChangesNothing : Prop :=
  ∀ s : State, s.pending = [] → step s = .next s

/-- The step never refuses, and the one fault is PACK or UNPACK with a good length and too short a stream while `FAULT` is `NONE`
(20_memory.md R51). -/
def Obligations.StepStopsOnlyOnShortStream : Prop :=
  ∀ s : State, (∀ r, step s ≠ .refused r) ∧
    ∀ r, step s = .fault r → r = .streamStarved ∧ s.fault = .none ∧
      ∃ cw stream d rest len, s.pending = .command cw stream d :: rest ∧ stream.length < len ∧
        ((decode cw = .ok (.pack len) ∧ len % 4 = 0) ∨ (decode cw = .ok (.unpack len) ∧ len % 3 = 0))

/-- No step changes the parameters of the build (00_scope.md R11, 10_state.md R40 b). -/
def Obligations.StepKeepsBuild : Prop :=
  ∀ s t : State, step s = .next t → t.build = s.build

/-- A step that is no reset adds at most one event to the output history and removes none (10_state.md R28). -/
def Obligations.StepAppendsAtMostOneEvent : Prop :=
  ∀ s t : State, step s = .next t → (∀ st rest, s.pending = st :: rest → st.isReset = false) →
    ∃ new, t.history = s.history ++ new ∧ new.length ≤ 1

/-! ## Acceptance, statuses, reset -/

/-- Discarded commands (43_system.md R192): while `FAULT` is not `NONE`, any sequence of command words, defined or reserved, runs to
its end and changes nothing but the model's own queue, stream and draws. -/
def Obligations.HaltedBlockDiscardsEveryCommand : Prop :=
  ∀ s : State, s.fault ≠ .none → s.pending.all Stimulus.isCommand = true →
    ∃ t : State, Sys2Proof.core.run s.pending.length s = .next t ∧
      t = { s with pending := [], input := t.input, draws := t.draws }

/-- Only a reset leaves the halted condition (70_reset_and_hazards.md R261): whatever else the core, the host and the issuer of
commands do, and for however long, no register of the block, no event and no byte of `FILE` changes. (That no other party changes
`FILE` between commands is the model's choice, log 19.) -/
def Obligations.HaltedBlockStaysHaltedUntilReset : Prop :=
  ∀ (n : Nat) (s t : State), s.fault ≠ .none → s.pending.all (fun st => !st.isReset) = true →
    Sys2Proof.core.run n s = .next t →
    t.fault = s.fault ∧ t.status = s.status ∧ t.mtx = s.mtx ∧ t.icn = s.icn ∧ t.dirty = s.dirty ∧ t.fb = s.fb ∧
    t.history = s.history ∧ t.stg = s.stg ∧ t.file = s.file

/-- Raising a status (60_exceptions.md R243): `STATUS` takes it, `FAULT` is set when it is terminal (R233), and nothing else
changes. -/
def Obligations.RaiseWritesStatusAndFaultOnly : Prop :=
  ∀ (st : Status) (s : State),
    s.raise st = { s with status := st, fault := (s.raise st).fault } ∧
    (st = .malformedRom → (s.raise st).fault = .malformedRom) ∧
    (st = .coreHalt → (s.raise st).fault = .coreHalt) ∧
    (st ≠ .malformedRom → st ≠ .coreHalt → (s.raise st).fault = s.fault)

/-- The numeric codes of `STATUS` (60_exceptions.md R231) and of `FAULT` (10_state.md R27). -/
def Obligations.StatusAndFaultCodes : Prop :=
  Status.ok.code = 0 ∧ Status.storageUnavailable.code = 1 ∧ Status.notFound.code = 2 ∧ Status.corruptState.code = 3 ∧
  Status.writeFailure.code = 4 ∧ Status.malformedRom.code = 5 ∧ Status.coreHalt.code = 6 ∧
  Status.illegalCommand.code = 7 ∧ FaultReg.none.code = 0 ∧ FaultReg.malformedRom.code = 1 ∧ FaultReg.coreHalt.code = 2

/-- Every step keeps `FAULT` and `STATUS` in agreement (R231, R233): a terminal code is in `STATUS` exactly while `FAULT` holds the
matching value. -/
def Obligations.StepKeepsFaultMirroringStatus : Prop :=
  ∀ s t : State, FaultMirrorsStatus s → step s = .next t → FaultMirrorsStatus t

/-- Precision (60_exceptions.md R244): a command that ends with a status other than `OK` has changed nothing but `STATUS`, `FAULT`
and the hidden staging buffer, but for `WriteFailure`, which has changed `FILE` too. -/
def Obligations.FailingCommandChangesNothingElse : Prop :=
  ∀ (i : Instr) (s t : State), s.fault = .none → exec i s = .next t → t.status ≠ .ok →
    t = { s with status := t.status, fault := t.fault, stg := t.stg, file := t.file } ∧
    (t.status ≠ .writeFailure → t.file = s.file)

/-- Reset (10_state.md R41, 70_reset_and_hazards.md R260): the matrix and the icons all 0, `DIRTY` = 1, `STATUS` = 0, `FAULT` = 0, the
output history empty; `CS` and `FILE` as they were. -/
def Obligations.ResetLeavesTheStatedValues : Prop :=
  ∀ (s : State) (rest : List Stimulus), s.pending = .reset :: rest →
    ∃ t, step s = .next t ∧ (∀ x y, x < 32 → y < 16 → t.mtx.cell x y = false) ∧
      t.icn.length = s.build.iconNum ∧ (∀ i, i < s.build.iconNum → t.icn[i]? = some false) ∧ t.dirty = true ∧
      t.status.code = 0 ∧ t.fault.code = 0 ∧ t.history = [] ∧ t.cs = s.cs ∧ t.file = s.file

/-- Reset in the middle of a SAVE (70_reset_and_hazards.md R260): past the removal step `FILE` is left as a prefix of the new blob,
before it `FILE` is unchanged; `CS` is untouched, and the block is reset: every value R41 gives. (That the stimulus says how far the
SAVE had come is the model's device, log 13.) -/
def Obligations.ResetDuringSaveLeavesAPrefix : Prop :=
  ∀ (s : State) (d : Draws) (past : Option Nat) (rest : List Stimulus), s.fault = .none → d.accOk = true →
    d.mountOk = true → s.pending = .resetDuring (encode .save) d past :: rest →
    ∃ t, step s = .next t ∧ t.cs = s.cs ∧ (∀ x y, x < 32 → y < 16 → t.mtx.cell x y = false) ∧
      t.icn.length = s.build.iconNum ∧ (∀ i, i < s.build.iconNum → t.icn[i]? = some false) ∧
      t.fault = .none ∧ t.status = .ok ∧ t.dirty = true ∧ t.history = [] ∧
      (past = none → t.file = s.file) ∧
      (past ≠ none → ∃ p, t.file = some p ∧ p <+: ser s.build s.cs)

/-- The reset state of every build, the machine's own among them, is well formed, satisfies the display invariant, and has `FAULT`
agree with `STATUS`. (What the spec gives no reset value for is the model's choice: logs 2, 4, 6, 7, 8.) -/
def Obligations.ResetStateSatisfiesInvariants : Prop :=
  ∀ b : Build, (State.resetOf b).wf = true ∧ DisplayInvariant (State.resetOf b) ∧
    FaultMirrorsStatus (State.resetOf b) ∧ State.reset = State.resetOf Config.build

/-- Every step keeps the state well formed: the icon vector, the framebuffer, the slots and the staging buffer keep the lengths of
the build, the memory image keeps its canonical form within `MEM_IMAGE_BYTES`, and no tick serves Help in the variant of the host
that has it in `Paused` only (44_host_session.md R210). -/
def Obligations.StepKeepsStateWellFormed : Prop :=
  ∀ s t : State, s.wf = true → step s = .next t → t.wf = true

/-- No command reaches a data space other than those listed for it (20_memory.md R50), and none touches the build, the draws, the
queue or the host's session. -/
def Obligations.CommandsReachTheirOwnSpacesOnly : Prop :=
  ∀ (i : Instr) (s t : State), exec i s = .next t →
    t.build = s.build ∧ t.draws = s.draws ∧ t.pending = s.pending ∧ t.session = s.session ∧
    ((∀ x y v, i ≠ .setPixel x y v) → t.mtx = s.mtx) ∧
    ((∀ n v, i ≠ .setIcon n v) → t.icn = s.icn) ∧
    (i ≠ .render → t.fb = s.fb) ∧
    (marksDirty s.build i = false → i ≠ .render → t.dirty = s.dirty) ∧
    (i ≠ .load → t.cs = s.cs ∧ t.stg = s.stg) ∧
    (i ≠ .save → t.file = s.file) ∧
    ((∀ len, i ≠ .pack len) → (∀ len, i ≠ .unpack len) → t.input = s.input) ∧
    ((∀ len, i ≠ .pack len) → (∀ len, i ≠ .unpack len) → i ≠ .render → i ≠ .load → t.history = s.history)

/-! ## RomCodec (40_romcodec.md) -/

/-- PACK (R121), with its encoding. A length that is not a multiple of 4 raises `MalformedRom` and does nothing else; otherwise the
whole stream is read and one `PackOut` emitted, whose bytes are the document's formulas on every group. -/
def Obligations.PackEmitsPackedImage : Prop :=
  (∀ len : Nat, len < 2 ^ 28 → spells 0x1 len (.pack len)) ∧
  ∀ (s : State) (len : Nat), s.fault = .none →
    (len % 4 ≠ 0 → exec (.pack len) s = .next { s with status := .malformedRom, fault := .malformedRom }) ∧
    (len % 4 = 0 → len ≤ s.input.length → ∃ p : List Byte,
      exec (.pack len) s =
        .next { s with input := s.input.drop len, history := s.history ++ [.packOut p], status := .ok } ∧
      p.length = 3 * len / 4 ∧
      ∀ k, 4 * k + 3 < len →
        byteAt p (3 * k) =
          ((byteAt s.input (4 * k) <<< 4) ||| ((byteAt s.input (4 * k + 1) >>> 4) &&& 0xF)) % 2 ^ 8 ∧
        byteAt p (3 * k + 1) = ((byteAt s.input (4 * k + 1) &&& 0xF) <<< 4) ||| byteAt s.input (4 * k + 2) ∧
        byteAt p (3 * k + 2) = byteAt s.input (4 * k + 3))

/-- UNPACK (R122), with its encoding. A length that is not a multiple of 3 raises `MalformedRom` and does nothing else; otherwise
the whole stream is read and one `UnpackOut` emitted, whose words are the document's formulas on every group, with no
truncation. -/
def Obligations.UnpackEmitsWordRom : Prop :=
  (∀ len : Nat, len < 2 ^ 28 → spells 0x2 len (.unpack len)) ∧
  ∀ (s : State) (len : Nat), s.fault = .none →
    (len % 3 ≠ 0 → exec (.unpack len) s = .next { s with status := .malformedRom, fault := .malformedRom }) ∧
    (len % 3 = 0 → len ≤ s.input.length → ∃ w : List RomWord,
      exec (.unpack len) s =
        .next { s with input := s.input.drop len, history := s.history ++ [.unpackOut w], status := .ok } ∧
      w.length = 2 * len / 3 ∧
      ∀ k, 3 * k + 2 < len →
        wordAt w (2 * k) = (byteAt s.input (3 * k) <<< 4) ||| ((byteAt s.input (3 * k + 1) >>> 4) &&& 0xF) ∧
        wordAt w (2 * k + 1) = ((byteAt s.input (3 * k + 1) &&& 0xF) <<< 8) ||| byteAt s.input (3 * k + 2))

/-- Statelessness of the codec (R124): PACK and UNPACK write nothing but `STATUS` and, on a length violation, `FAULT` (the stream they
consume and the event they emit are not state of the block's registers), and what they give depends on the stream alone: any two
ready states with the same stream get the same status, the same `FAULT` and the same event. -/
def Obligations.CodecIsStateless : Prop :=
  ∀ (i : Instr) (s u t : State), ((∃ len, i = .pack len) ∨ (∃ len, i = .unpack len)) → s.fault = .none →
    u.fault = .none → u.input = s.input → exec i s = .next t →
    t = { s with input := t.input, history := t.history, status := t.status, fault := t.fault } ∧
    (t.status ≠ .malformedRom → t.fault = s.fault) ∧
    ∃ v new, exec i u = .next v ∧ v.status = t.status ∧ v.fault = t.fault ∧ v.input = t.input ∧
      t.history = s.history ++ new ∧ v.history = u.history ++ new

/-- The packed group (30_encoding.md R82): the bits of three bytes are those of two words as the rule lays them out, and the map from
groups to word pairs is a bijection. -/
def Obligations.PackedGroupIsABijection : Prop :=
  (∀ b0 b1 b2 : Byte, ∃ w0 w1 : RomWord, unpack [b0, b1, b2] = [w0, w1] ∧ b0 = w0.extractLsb' 4 8 ∧
    b1.extractLsb' 4 4 = w0.extractLsb' 0 4 ∧ b1.extractLsb' 0 4 = w1.extractLsb' 8 4 ∧ b2 = w1.extractLsb' 0 8) ∧
  (∀ w0 w1 : RomWord, ∃ b0 b1 b2 : Byte, unpack [b0, b1, b2] = [w0, w1] ∧
    ∀ c0 c1 c2 : Byte, unpack [c0, c1, c2] = [w0, w1] → c0 = b0 ∧ c1 = b1 ∧ c2 = b2)

/-- Length relations (30_encoding.md R84): 4N bytes pack to 3N bytes and unpack to 2N words; of any packed image the words number two
thirds of the bytes, exactly. -/
def Obligations.CodecLengthRelations : Prop :=
  (∀ (x : List Byte) (n : Nat), x.length = 4 * n → (pack x).length = 3 * n ∧ (unpack (pack x)).length = 2 * n) ∧
  (∀ p : List Byte, p.length % 3 = 0 → 3 * (unpack p).length = 2 * p.length) ∧
  (∀ x : List Byte, x.length = 12288 → (pack x).length = 9216 ∧ (unpack (pack x)).length = 6144)

/-- A PACK or UNPACK whose length is good and whose stream is shorter never completes: the model gives it no step (20_memory.md
R51). -/
def Obligations.ShortStreamNeverCompletes : Prop :=
  ∀ (s : State) (len : Nat), s.fault = .none → s.input.length < len →
    (len % 4 = 0 → exec (.pack len) s = .fault .streamStarved) ∧
    (len % 3 = 0 → exec (.unpack len) s = .fault .streamStarved)

/-- The canonical 12-bit view of a nibble-pair image is the one R81 defines. -/
def Obligations.CanonicalViewIsThePairFormula : Prop :=
  ∀ x : List Byte, x.length % 4 = 0 → (canon x).length = 2 * (x.length / 4) ∧
    ∀ k, 4 * k + 3 < x.length →
      wordAt (canon x) (2 * k) = ((byteAt x (4 * k) &&& 0xF) <<< 8) ||| byteAt x (4 * k + 1) ∧
      wordAt (canon x) (2 * k + 1) = ((byteAt x (4 * k + 2) &&& 0xF) <<< 8) ||| byteAt x (4 * k + 3)

/-- The round-trip law (R123): word by word for every image of whole groups, the exact condition under which the law holds, and that
it holds without exception on valid images, where PACK loses no information. -/
def Obligations.CodecRoundTripLaw : Prop :=
  (∀ x : List Byte, x.length % 4 = 0 →
    (∀ k, 4 * k + 3 < x.length →
      wordAt (unpack (pack x)) (2 * k + 1) = wordAt (canon x) (2 * k + 1) ∧
      wordAt (unpack (pack x)) (2 * k) = wordAt (canon x) (2 * k) ||| (byteAt x (4 * k + 2) >>> 4)) ∧
    (unpack (pack x) = canon x ↔ ∀ k, 4 * k + 3 < x.length →
      (byteAt x (4 * k + 2) >>> 4) &&& (0xFF - byteAt x (4 * k + 1)) &&& 0xF = 0) ∧
    (validImage x = true → unpack (pack x) = canon x)) ∧
  (∀ x y : List Byte, validImage x = true → validImage y = true → pack x = pack y → x = y)

/-- Every packed image has exactly one valid nibble-pair image that packs to it, given by the rule's formulas; UNPACK gives its
canonical view, and UNPACK is injective (R125). -/
def Obligations.PackedImageHasOnePreimage : Prop :=
  (∀ p : List Byte, p.length % 3 = 0 →
    validImage (nibblePairs p) = true ∧ pack (nibblePairs p) = p ∧
    (∀ x, validImage x = true → pack x = p → x = nibblePairs p) ∧
    unpack p = canon (nibblePairs p) ∧
    ∀ k, 3 * k + 2 < p.length →
      byteAt (nibblePairs p) (4 * k) = byteAt p (3 * k) >>> 4 ∧
      byteAt (nibblePairs p) (4 * k + 1) = ((byteAt p (3 * k) &&& 0xF) <<< 4) ||| (byteAt p (3 * k + 1) >>> 4) ∧
      byteAt (nibblePairs p) (4 * k + 2) = byteAt p (3 * k + 1) &&& 0xF ∧
      byteAt (nibblePairs p) (4 * k + 3) = byteAt p (3 * k + 2)) ∧
  (∀ p q : List Byte, p.length % 3 = 0 → p.length = q.length → unpack p = unpack q → p = q)

/-- Bring-up (its stimulus is the model's, log 14) of a valid nibble-pair ROM from a block in the ready condition
(70_reset_and_hazards.md R262 steps 1 to 3): of the four steps the first is the host's, and the others are PACK, UNPACK and the
core's initialisation; the history holds the canonical words of the ROM; LOAD is next, and the look at its result after it. (That
all of them come before anything else pending, a reset included, is the model's choice, log 20.) -/
def Obligations.BringUpDeliversTheRom : Prop :=
  ∀ (s : State) (rom : List Byte) (init : CoreState) (d : Draws) (rest : List Stimulus), s.fault = .none →
    validImage rom = true → rom.length < 2 ^ 28 → s.pending = .host (.boot rom false init d) :: rest →
    ∃ t : State, Sys2Proof.core.run 4 s = .next t ∧ t.cs = init ∧ t.status = .ok ∧ t.fault = .none ∧
      t.history = s.history ++ [.packOut (pack rom), .unpackOut (canon rom)] ∧
      t.pending = .command (encode .load) [] d :: .host .loadReturned :: rest

/-! ## StateStore (41_statestore.md, 30_encoding.md A2) -/

/-- The field table (30_encoding.md R91): for every field of the record, its place in record order, its bit width, its wire width, and
its bytes in the blob at its offset. -/
def Obligations.BlobFollowsTheFieldTable : Prop :=
  ∀ (b : Build) (cs : CoreState) (f : Field), f.inRecord b →
    (recordFields b)[tableOrder b.intSlots f]? = some f ∧ f.width = tableWidth f ∧ f.wireBytes = tableWire f ∧
    accGet cs f < 2 ^ tableWidth f ∧ fieldBytes b (ser b cs) f = le (tableWire f) (accGet cs f)

/-- `STATE_BYTES` is the sum of the wire widths of the field table (R94), and every record serialises to exactly that many bytes. -/
def Obligations.BlobHasStateBytes : Prop :=
  ∀ b : Build, ((recordFields b).map Field.wireBytes).sum = 55 + 4 * b.intSlots + b.memImageBytes ∧
    b.stateBytes = 55 + 4 * b.intSlots + b.memImageBytes ∧ ∀ cs : CoreState, (ser b cs).length = b.stateBytes

/-- Deserialising a serialised record gives the record back, every slot in order and every byte of the memory image (R96). -/
def Obligations.DeserialiseOfSerialiseIsIdentity : Prop :=
  ∀ (b : Build) (r : CoreState), r.wf b = true → de b (ser b r) = r

/-- Serialising what was read from a byte sequence gives, at every field, the bytes read with the unused container bits cleared
(R96, R92). -/
def Obligations.SerialiseOfDeserialiseClearsUnusedBits : Prop :=
  ∀ (b : Build) (bytes : List Byte), bytes.length = b.stateBytes →
    (de b bytes).wf b = true ∧
    ∀ f : Field, f.inRecord b →
      fieldBytes b (ser b (de b bytes)) f = le (tableWire f) (fromLe (fieldBytes b bytes f) % 2 ^ f.width)

/-- SAVE (R143), with its encoding, from every ready state: its statuses in the order of its tests, `FILE` whole, unchanged or the prefix the medium
accepted, and nothing else changed. -/
def Obligations.SaveWritesTheBlobOrReports : Prop :=
  spells 0x3 0 .save ∧
  ∀ s : State, s.fault = .none →
    ∃ t, exec .save s = .next t ∧ t = { s with file := t.file, status := t.status } ∧
      (s.draws.accOk = false → t.status = .corruptState ∧ t.file = s.file) ∧
      (s.draws.accOk = true → s.draws.mountOk = false → t.status = .storageUnavailable ∧ t.file = s.file) ∧
      (s.draws.accOk = true → s.draws.mountOk = true → s.build.stateBytes ≤ s.draws.accepted →
        t.status = .ok ∧ t.file = some (ser s.build s.cs)) ∧
      (s.draws.accOk = true → s.draws.mountOk = true → s.draws.accepted < s.build.stateBytes →
        t.status = .writeFailure ∧
        ∃ p, t.file = some p ∧ p.length = s.draws.accepted ∧ p <+: ser s.build s.cs ∧ p ≠ ser s.build s.cs)

/-- Layout independence (R148): the blob of a successful SAVE depends on the record and the build only, not on anything else in the
state, the earlier file and history among them. -/
def Obligations.SavedBlobDependsOnRecordOnly : Prop :=
  ∀ s u : State, s.fault = .none → u.fault = .none → u.build = s.build → u.cs = s.cs → saveSucceeds s.build s.draws →
    saveSucceeds u.build u.draws →
    ∃ t v, exec .save s = .next t ∧ exec .save u = .next v ∧ t.status = .ok ∧ v.status = .ok ∧ t.file ≠ none ∧ t.file = v.file

/-- LOAD (R144), with its encoding, from every ready state whose record has every field: its statuses in the order of its tests; on success every field
of `CS` holds the low bits of its bytes in `FILE` and one `CoreRefresh` is emitted; on failure `CS` and the history are as before.
`FILE`, the display and `FAULT` never change. -/
def Obligations.LoadReadsTheBlobOrReports : Prop :=
  spells 0x4 0 .load ∧
  ∀ s : State, s.fault = .none → s.cs.wf s.build = true →
    ∃ t, exec .load s = .next t ∧
      t = { s with cs := t.cs, stg := t.stg, history := t.history, status := t.status } ∧
      (s.draws.mountOk = false → t.status = .storageUnavailable ∧ t.cs = s.cs ∧ t.history = s.history) ∧
      (s.draws.mountOk = true → s.file = none → t.status = .notFound ∧ t.cs = s.cs ∧ t.history = s.history) ∧
      (∀ blob, s.draws.mountOk = true → s.file = some blob →
        (min blob.length s.draws.readLimit < s.build.stateBytes ∨ s.draws.accOk = false) →
        t.status = .corruptState ∧ t.cs = s.cs ∧ t.history = s.history) ∧
      (∀ blob, s.draws.mountOk = true → s.file = some blob →
        s.build.stateBytes ≤ min blob.length s.draws.readLimit → s.draws.accOk = true →
        t.status = .ok ∧ t.history = s.history ++ [.coreRefresh] ∧ t.cs.wf s.build = true ∧
        ∀ f : Field, f.inRecord s.build → accGet t.cs f = fromLe (fieldBytes s.build blob f) % 2 ^ f.width)

/-- The memory image after a successful LOAD: byte `j` is the byte of `FILE` at offset `55 + 4N + j`, and no byte outside the image
exists to change. -/
def Obligations.LoadWritesEveryMemoryByte : Prop :=
  ∀ (s t : State) (blob : List Byte), s.fault = .none → s.cs.wf s.build = true → s.draws.accOk = true →
    s.draws.mountOk = true → s.file = some blob → s.build.stateBytes ≤ min blob.length s.draws.readLimit →
    exec .load s = .next t → ∀ a, Memory.read t.cs.mem a =
      if a < s.build.memImageBytes then (blob[55 + 4 * s.build.intSlots + a]?).getD 0 else Memory.read s.cs.mem a

/-- The state round-trip law (R145): SAVE, any change of the core's record, LOAD, all three as the environment presents them; then
`CS` is what was saved, `STATUS` is `OK` and one `CoreRefresh` has been emitted. -/
def Obligations.SaveThenLoadRestoresTheRecord : Prop :=
  ∀ (s : State) (d1 d2 : Draws) (stream1 stream2 : List Byte) (q : CoreState) (rest : List Stimulus), s.fault = .none →
    s.cs.wf s.build = true → q.wf s.build = true → saveSucceeds s.build d1 → loadSucceeds s.build d2 →
    s.pending = [.command (encode .save) stream1 d1, .core q, .command (encode .load) stream2 d2] ++ rest →
    ∃ t : State, Sys2Proof.core.run 3 s = .next t ∧ t.cs = s.cs ∧ t.status = .ok ∧ t.history = s.history ++ [.coreRefresh] ∧
      t.pending = rest

/-- The fresh-session law (R146): LOAD from a medium that opens and holds no blob reports `NotFound` and changes nothing else. -/
def Obligations.LoadWithoutAFileIsNotFound : Prop :=
  ∀ s : State, s.fault = .none → s.draws.mountOk = true → s.file = none →
    exec .load s = .next { s with status := .notFound } ∧ Status.notFound.latch s.fault = s.fault

/-- No partial application (R147): a LOAD that does not complete with `OK` leaves `CS` and the history as they were; SAVE never
writes `CS`. -/
def Obligations.FailedLoadAndSaveLeaveTheRecord : Prop :=
  (∀ s t : State, exec .load s = .next t → t.status ≠ .ok → t.cs = s.cs ∧ t.history = s.history) ∧
  (∀ s t : State, exec .save s = .next t → t.cs = s.cs)

/-- A failed SAVE destroys the previous save (70_reset_and_hazards.md R274): after `WriteFailure` every LOAD that opens the medium
gives `CorruptState` and leaves `CS`, whatever else has happened that left `FILE`, the build and the ready condition alone. -/
def Obligations.FailedSaveDestroysThePreviousSave : Prop :=
  ∀ s t u : State, s.fault = .none → exec .save s = .next t → t.status = .writeFailure →
    u.file = t.file → u.build = t.build → u.fault = .none → u.draws.mountOk = true →
    ∃ v, exec .load u = .next v ∧ v.status = .corruptState ∧ v.cs = u.cs ∧ v.file = u.file

/-! ## DisplayCompositor (42_compositor.md) -/

/-- SETPIXEL (R171), with its encoding, every form: in range, the one addressed cell takes the value, every other cell keeps its own, `DIRTY` is set
whatever the cell held; out of range nothing changes but `STATUS`. -/
def Obligations.SetPixelWritesOneCell : Prop :=
  (∀ (x y : Nat) (val : Bool), x < 256 → y < 256 →
    spells 0x5 (val.toNat * 2 ^ 16 + x * 2 ^ 8 + y) (.setPixel x y val)) ∧
  ∀ (s : State) (x y : Nat) (val : Bool), s.fault = .none →
    (x < 32 → y < 16 → ∃ t, exec (.setPixel x y val) s = .next t ∧
      t = { s with mtx := t.mtx, dirty := true, status := .ok } ∧ t.mtx.cell x y = val ∧
      ∀ x' y', (x' ≠ x ∨ y' ≠ y) → t.mtx.cell x' y' = s.mtx.cell x' y') ∧
    (¬(x < 32 ∧ y < 16) → exec (.setPixel x y val) s = .next { s with status := .ok })

/-- SETICON (R172), with its encoding, every form, on a state whose icon vector has the length of the build. -/
def Obligations.SetIconWritesOneEntry : Prop :=
  (∀ (i : Nat) (val : Bool), i < 256 → spells 0x6 (val.toNat * 2 ^ 16 + i * 2 ^ 8) (.setIcon i val)) ∧
  ∀ (s : State) (i : Nat) (val : Bool), s.fault = .none → s.icn.length = s.build.iconNum →
    (i < s.build.iconNum → ∃ t, exec (.setIcon i val) s = .next t ∧
      t = { s with icn := t.icn, dirty := true, status := .ok } ∧ t.icn.length = s.icn.length ∧ t.icn[i]? = some val ∧
      ∀ j, j ≠ i → t.icn[j]? = s.icn[j]?) ∧
    (s.build.iconNum ≤ i → exec (.setIcon i val) s = .next { s with status := .ok })

/-- RENDER (R173), with its encoding: a no-op unless dirty; else one redraw of the whole buffer in the layout of 30_encoding.md R97, one `Redraw` event
that carries it, and `DIRTY` cleared. -/
def Obligations.RenderCopiesTheDisplayWhenDirty : Prop :=
  spells 0x7 0 .render ∧
  ∀ s : State, s.fault = .none →
    (s.dirty = false → exec .render s = .next { s with status := .ok }) ∧
    (s.dirty = true → ∃ cells : List Bool,
      exec .render s = .next { s with fb := some cells, history := s.history ++ [.redraw cells], dirty := false,
                                      status := .ok } ∧
      cells.length = 512 + s.build.iconNum ∧
      (∀ x y, x < 32 → y < 16 → cells[32 * y + x]? = some (s.mtx.cell x y)) ∧
      (∀ i, i < s.build.iconNum → cells[512 + i]? = some (iconAt s.icn i)))

/-- INVALIDATE (R174), with its encoding: `DIRTY` is set and nothing else changes but `STATUS`; a RENDER that follows it emits exactly one
`Redraw`. -/
def Obligations.InvalidateForcesTheNextRedraw : Prop :=
  spells 0x8 0 .invalidate ∧
  ∀ s : State, s.fault = .none →
    exec .invalidate s = .next { s with dirty := true, status := .ok } ∧
    ∃ t cells, execAll [.invalidate, .render] s = .next t ∧ t.history = s.history ++ [.redraw cells]

/-- Idempotence of RENDER (R175): with none of the three commands that mark the display dirty between two RENDER commands, the
second emits nothing and changes nothing but `STATUS`. -/
def Obligations.SecondRenderIsANoOp : Prop :=
  ∀ (is : List Instr) (s t u v : State), (∀ i ∈ is, marksDirty s.build i = false) →
    exec .render s = .next t → execAll is t = .next u → exec .render u = .next v →
    v = { u with status := v.status }

/-- Coalescing (R176): the number of `Redraw` events in any run of commands is at most the number of RENDER commands in it; and
after any commands without a RENDER, a RENDER emits at most one, which shows the state after the last of them. -/
def Obligations.RedrawsAreAtMostRenders : Prop :=
  (∀ (is : List Instr) (s t : State), execAll is s = .next t →
    redraws t.history ≤ redraws s.history + renders is) ∧
  (∀ (is : List Instr) (s t u : State), (∀ i ∈ is, i ≠ .render) → execAll is s = .next t → exec .render t = .next u →
    redraws t.history = redraws s.history ∧
    (u.history = t.history ∨ u.history = t.history ++ [.redraw (framebuffer t.build t.mtx t.icn)]))

/-- The dirty-flag invariant (R177): the reset state has it and every step, of any agent, keeps it. The converse does not hold: after
RENDER and INVALIDATE `DIRTY` = 1 and `FB` agrees all the same. -/
def Obligations.DirtyFlagInvariantHolds : Prop :=
  (∀ b : Build, DisplayInvariant (State.resetOf b)) ∧
  (∀ s t : State, DisplayInvariant s → step s = .next t → DisplayInvariant t) ∧
  ∀ b : Build, ∃ t, execAll [.render, .invalidate] (State.resetOf b) = .next t ∧ t.dirty = true ∧
    t.fb = some (framebuffer b t.mtx t.icn)

/-- `FB` holds what the last redraw since reset carried, and no value while there has been none (10_state.md R25, R28, R263): true of
the reset state and kept by every step. -/
def Obligations.FramebufferIsTheLastRedraw : Prop :=
  (∀ b : Build, (State.resetOf b).fb = lastRedraw (State.resetOf b).history) ∧
  ∀ s t : State, s.fb = lastRedraw s.history → step s = .next t → t.fb = lastRedraw t.history

/-- Repeating one of five commands with the same operands and the same draws leaves the same state as one: SETPIXEL and SETICON
(20_memory.md R67; 42_compositor.md R171, R172), SAVE with its whole state (R67; 41_statestore.md R143), RENDER with its whole state
(R67; 42_compositor.md R173, R175), INVALIDATE (R174 a; R67 does not name it); a halted block discards both (43_system.md R192). -/
def Obligations.RepeatedCommandChangesNothingMore : Prop :=
  ∀ (i : Instr) (s t : State),
    ((∃ x y v, i = .setPixel x y v) ∨ (∃ n v, i = .setIcon n v) ∨ i = .save ∨ i = .invalidate ∨ i = .render) →
    exec i s = .next t → exec i t = .next t

/-! ## System -/

/-- HALT (43_system.md R190), with its encoding: from every ready state `STATUS` is `CoreHalt` (6), `FAULT` is `CORE_HALT` (2), all else
unchanged; from a halted one, after a HALT or after `MalformedRom`, it is discarded. -/
def Obligations.HaltLatchesCoreHalt : Prop :=
  spells 0x9 0 .halt ∧ Status.coreHalt.code = 6 ∧ FaultReg.coreHalt.code = 2 ∧
  ∀ s : State,
    (s.fault = .none → exec .halt s = .next { s with status := .coreHalt, fault := .coreHalt }) ∧
    (s.fault ≠ .none → exec .halt s = .next s)

/-- After HALT the display is frozen (R190 a): nothing but a reset can change `FB` again, however the run goes on. (That no other party
changes `FILE` between commands is the model's choice, log 19.) -/
def Obligations.HaltFreezesTheDisplay : Prop :=
  ∀ (s t u : State) (n : Nat), s.fault = .none → exec .halt s = .next t →
    t.pending.all (fun st => !st.isReset) = true → Sys2Proof.core.run n t = .next u →
    u.fb = s.fb ∧ u.mtx = s.mtx ∧ u.icn = s.icn ∧ u.file = s.file ∧ u.fault = .coreHalt

/-- Only three commands end the ready condition, each in its own way (60_exceptions.md R231): PACK and UNPACK with a bad length, and
HALT. -/
def Obligations.OnlyTerminalStatusesSetFault : Prop :=
  ∀ (i : Instr) (s t : State), s.fault = .none → exec i s = .next t → t.fault ≠ .none →
    (t.fault = .malformedRom ∧ ((∃ len, i = .pack len ∧ len % 4 ≠ 0) ∨ (∃ len, i = .unpack len ∧ len % 3 ≠ 0))) ∨
    (t.fault = .coreHalt ∧ i = .halt)

/-! ## The host (44_host_session.md), as the model's environment runs it -/

/-- A tick in `Running` (R204, R206, R207, R211): the six lines are sampled once and the edges of all six computed from the previous
sample; the gameplay levels are forwarded; and of each session line that rises exactly one action joins the agenda (of Help none in
the variant that has it in `Paused` only), of a line held or released none. Then each action is begun in its turn: a SAVE is issued,
or an overlay entered; and the core steps and the render come when the agenda is empty. (The agenda and its order are the model's
way, log 14; that what the host orders comes before anything else pending is the model's choice, log 20.) -/
def Obligations.TickServesEachRisingEdgeOnce : Prop :=
  (∀ (s : State) (k : Tick) (rest : List Stimulus), s.fault = .none → s.session.mode = .running →
    s.pending = .host (.tick k) :: rest →
    ∃ (t : State) (new : List SessionAct), step s = .next t ∧
      t = { s with session := t.session, pending := .host .proceed :: rest } ∧
      t.session.mode = .running ∧ t.session.volume = s.session.volume ∧
      t.session.previous = s.session.current ∧ t.session.current = k.keys ∧
      t.session.levels = ⟨k.keys.left, k.keys.middle, k.keys.right⟩ ∧
      t.session.edges = ⟨!s.session.current.left && k.keys.left, !s.session.current.middle && k.keys.middle,
        !s.session.current.right && k.keys.right, !s.session.current.save && k.keys.save,
        !s.session.current.pause && k.keys.pause, !s.session.current.help && k.keys.help⟩ ∧
      t.session.held = s.session.held ++ k.work ∧ t.session.agenda = s.session.agenda ++ new ∧
      new.count (.save k.draws) = (if !s.session.current.save && k.keys.save then 1 else 0) ∧
      (∀ d, d ≠ k.draws → SessionAct.save d ∉ new) ∧
      new.count .pause = (if !s.session.current.pause && k.keys.pause then 1 else 0) ∧
      new.count .help = (if !s.session.current.help && k.keys.help && !s.build.helpFromPaused then 1 else 0)) ∧
  (∀ (s : State) (rest : List Stimulus), s.fault = .none → s.session.mode = .running →
    s.pending = .host .proceed :: rest →
    (∀ d more, s.session.agenda = .save d :: more → step s = .next { s with
      session := { s.session with mode := .saveInProgress, agenda := more }
      pending := .command (encode .save) [] d :: .host .saveReturned :: rest }) ∧
    (∀ more, s.session.agenda = .pause :: more → step s = .next { s with
      session := { s.session with mode := .paused, agenda := more }, pending := rest }) ∧
    (∀ more, s.session.agenda = .help :: more → step s = .next { s with
      session := { s.session with mode := .helpOverlay, agenda := more }, pending := rest }) ∧
    (s.session.agenda = [] → step s = .next { s with
      session := { s.session with held := [] }, pending := s.session.held.map .host ++ rest }))

/-- A blocked host makes no progress (R212) and a stopped one does nothing more (R215): in `Paused`, `HelpOverlay` and
`SaveInProgress` no tick runs, the core is not stepped and nothing is rendered; with `FAULT` set no act of the host has any effect,
the RENDER of the tick in which the core halted included. -/
def Obligations.BlockedOrStoppedHostMakesNoProgress : Prop :=
  ∀ (s : State) (a : HostAct) (rest : List Stimulus), s.pending = .host a :: rest →
    (s.fault ≠ .none → step s = .next { s with pending := rest }) ∧
    (s.session.mode ≠ .running →
      (a = .proceed ∨ (∃ k, a = .tick k) ∨ (∃ acts d, a = .coreStep acts d) ∨ (∃ d, a = .renderDue d)) →
      step s = .next { s with pending := rest })

/-- Resume from `Paused` (R209), by a non-volume key, or by a press of Help in the variant where Help is one: the host is back in
`Running` and has forced a full redraw; three steps on, `FB` shows the matrix and the icons as they stand. (The model's choice, log
14: that a press of Help since the last poll counts as a non-volume key in that variant, and that the suspended tick goes on next,
DEDUCED from R201. Log 20: that INVALIDATE and RENDER come before anything else pending, a reset included.) -/
def Obligations.ResumeForcesAFullRedraw : Prop :=
  ∀ (s : State) (key : PollKey) (help : Bool) (rest : List Stimulus), s.fault = .none → s.session.mode = .paused →
    s.pending = .host (.poll key help) :: rest →
    ((key = .other ∧ (help = false ∨ s.session.polledHelp = true)) ∨
      (help = true ∧ s.session.polledHelp = false ∧ s.build.helpFromPaused = false)) →
    ∃ t : State, Sys2Proof.core.run 3 s = .next t ∧ t.session.mode = .running ∧ t.dirty = false ∧
      t.pending = .host .proceed :: rest ∧ t.mtx = s.mtx ∧ t.icn = s.icn ∧
      t.fb = some (framebuffer s.build s.mtx s.icn) ∧
      t.history = s.history ++ [.redraw (framebuffer s.build s.mtx s.icn)]

/-- The host's modal machine moves only as R206 to R211 describe and log 14 settles, in every well-formed state: from `Running` by the
action of a risen session line; SAVE and back; from `Paused` by resume, or to Help on its rising edge in the variant that has it there;
from Help to the state its variant gives; and to `Running` at bring-up. (The model's choice, log 14: that an edge of Help in `Paused`
lies between two polls, and that risen session lines wait in the agenda.) -/
def Obligations.HostModeMovesOnlyAsDescribed : Prop :=
  ∀ s t : State, s.wf = true → step s = .next t →
    t.session.mode = s.session.mode ∨
    (s.session.mode = .running ∧ (∃ rest, s.pending = .host .proceed :: rest) ∧
      ((t.session.mode = .saveInProgress ∧ ∃ d more, s.session.agenda = .save d :: more) ∨
        (t.session.mode = .paused ∧ ∃ more, s.session.agenda = .pause :: more) ∨
        (t.session.mode = .helpOverlay ∧ s.build.helpFromPaused = false ∧ ∃ more, s.session.agenda = .help :: more))) ∨
    (s.session.mode = .saveInProgress ∧ t.session.mode = .running) ∨
    (s.session.mode = .paused ∧ (t.session.mode = .running ∨
      (t.session.mode = .helpOverlay ∧ s.build.helpFromPaused = true ∧ s.session.polledHelp = false ∧
        ∃ key rest, s.pending = .host (.poll key true) :: rest))) ∨
    (s.session.mode = .helpOverlay ∧
      t.session.mode = (if s.build.helpFromPaused then Mode.paused else Mode.running)) ∨
    (t.session.mode = .running ∧ ∃ rom packed init d rest, s.pending = .host (.boot rom packed init d) :: rest)

/-- A volume key in `Paused` (R209): the level moves by 10 where 0..255 admits it; past a bound it goes to the bound or stays, as the
build has it (the model's choice, log 14); with no press of Help in the same poll nothing else of the machine changes but the polled
Help line. That the key moves the level also in a poll that finds Help newly pressed is the model's choice too (log 14). -/
def Obligations.VolumeMovesByTenWithinBounds : Prop :=
  ∀ (s : State) (help : Bool) (rest : List Stimulus), s.fault = .none → s.session.mode = .paused →
    (s.pending = .host (.poll .volumeUp help) :: rest → ∃ t, step s = .next t ∧
      (t.session.volume.toNat = if s.session.volume.toNat + 10 ≤ 255 then s.session.volume.toNat + 10
        else if s.build.volumeClamps then 255 else s.session.volume.toNat) ∧
      (help = false ∨ s.session.polledHelp = true → t = { s with
        pending := rest, session := { s.session with volume := t.session.volume, polledHelp := help } })) ∧
    (s.pending = .host (.poll .volumeDown help) :: rest → ∃ t, step s = .next t ∧
      (t.session.volume.toNat = if 10 ≤ s.session.volume.toNat then s.session.volume.toNat - 10
        else if s.build.volumeClamps then 0 else s.session.volume.toNat) ∧
      (help = false ∨ s.session.polledHelp = true → t = { s with
        pending := rest, session := { s.session with volume := t.session.volume, polledHelp := help } }))
end

