-- ==== Sys2Proof/Laws/Memory.lean ====
section
/-! SUPPORT. The laws of the byte-addressed memory: a read after a write, and the canonical form that every write keeps. -/

namespace Sys2Proof.Machine

@[simp] theorem Memory.read_nil (a : Nat) : Memory.read [] a = Memory.unlisted := rfl

theorem Memory.read_cons (a' : Nat) (b : Byte) (m : Memory) (a : Nat) :
    Memory.read ((a', b) :: m) a = if a' = a then b else Memory.read m a := rfl

/-- A read below every listed index finds nothing listed. -/
theorem Memory.read_below (m : Memory) (a : Nat) (h : ∀ c ∈ m, a < c.1) : Memory.read m a = Memory.unlisted := by
  induction m with
  | nil => rfl
  | cons c m ih =>
    have hc := h c (by simp)
    rw [show c = (c.1, c.2) from rfl, Memory.read_cons, if_neg (by omega)]
    exact ih (fun d hd => h d (by simp [hd]))

/-- The canonical form of a list, taken apart at its head. -/
theorem Memory.wf_cons (a : Nat) (b : Byte) (m : Memory) :
    Memory.wf ((a, b) :: m) = true ↔
      b ≠ Memory.unlisted ∧ (∀ c ∈ m, a < c.1) ∧ Memory.wf m = true := by
  simp [Memory.wf, and_assoc]

theorem Memory.read_insert (m : Memory) (a : Nat) (b : Byte) (c : Nat) :
    Memory.read (Memory.insert m a b) c = if c = a then b else Memory.read m c := by
  induction m with
  | nil => simp [Memory.insert, Memory.read_cons, eq_comm]
  | cons e m ih =>
    obtain ⟨a', b'⟩ := e
    simp only [Memory.insert]
    split
    · simp only [Memory.read_cons, eq_comm]
    · split
      · subst a'; simp only [Memory.read_cons, eq_comm]; split <;> simp
      · simp only [Memory.read_cons, ih]
        by_cases h1 : a' = c
        · subst h1; simp; intro h; omega
        · simp [h1]

theorem Memory.mem_insert (m : Memory) (a : Nat) (b : Byte) :
    ∀ c ∈ Memory.insert m a b, c = (a, b) ∨ c ∈ m := by
  induction m with
  | nil => simp [Memory.insert]
  | cons e m ih =>
    obtain ⟨a', b'⟩ := e
    intro c hc
    simp only [Memory.insert] at hc
    split at hc
    · simpa using hc
    · split at hc
      · simp only [List.mem_cons] at hc ⊢; tauto
      · simp only [List.mem_cons] at hc ⊢
        rcases hc with rfl | hc
        · simp
        · rcases ih c hc with h | h <;> tauto

theorem Memory.mem_erase (m : Memory) (a : Nat) : ∀ c ∈ Memory.erase m a, c ∈ m := by
  induction m with
  | nil => simp [Memory.erase]
  | cons e m ih =>
    obtain ⟨a', b'⟩ := e
    intro c hc
    simp only [Memory.erase] at hc
    split at hc
    · simp [hc]
    · simp only [List.mem_cons] at hc ⊢
      rcases hc with rfl | hc
      · simp
      · exact .inr (ih c hc)

theorem Memory.wf_insert (m : Memory) (a : Nat) (b : Byte) (hb : b ≠ Memory.unlisted) (hm : Memory.wf m = true) :
    Memory.wf (Memory.insert m a b) = true := by
  induction m with
  | nil => simp [Memory.insert, Memory.wf, hb]
  | cons e m ih =>
    obtain ⟨a', b'⟩ := e
    obtain ⟨h1, h2, h3⟩ := (Memory.wf_cons a' b' m).1 hm
    simp only [Memory.insert]
    split
    · rename_i hlt
      refine (Memory.wf_cons _ _ _).2 ⟨hb, ?_, hm⟩
      intro c hc
      rcases List.mem_cons.1 hc with rfl | hc
      · exact hlt
      · exact Nat.lt_trans hlt (h2 c hc)
    · split
      · subst a'
        exact (Memory.wf_cons _ _ _).2 ⟨hb, h2, h3⟩
      · refine (Memory.wf_cons _ _ _).2 ⟨h1, ?_, ih h3⟩
        intro c hc
        rcases Memory.mem_insert m a b c hc with rfl | hc
        · show a' < a; omega
        · exact h2 c hc

theorem Memory.wf_erase (m : Memory) (a : Nat) (hm : Memory.wf m = true) : Memory.wf (Memory.erase m a) = true := by
  induction m with
  | nil => rfl
  | cons e m ih =>
    obtain ⟨a', b'⟩ := e
    obtain ⟨h1, h2, h3⟩ := (Memory.wf_cons a' b' m).1 hm
    simp only [Memory.erase]
    split
    · exact h3
    · exact (Memory.wf_cons _ _ _).2 ⟨h1, fun c hc => h2 c (Memory.mem_erase m a c hc), ih h3⟩

theorem Memory.read_erase (m : Memory) (a c : Nat) (hm : Memory.wf m = true) :
    Memory.read (Memory.erase m a) c = if c = a then Memory.unlisted else Memory.read m c := by
  induction m with
  | nil => simp [Memory.erase]
  | cons e m ih =>
    obtain ⟨a', b'⟩ := e
    obtain ⟨h1, h2, h3⟩ := (Memory.wf_cons a' b' m).1 hm
    simp only [Memory.erase]
    split
    · subst a'
      by_cases hc : c = a
      · subst hc; simp [Memory.read_below m c h2]
      · simp [hc, Memory.read_cons, Ne.symm hc]
    · simp only [Memory.read_cons, ih h3]
      by_cases h : a' = c
      · subst h; simp; intro h; omega
      · simp [h]

/-- A read after a write to a canonical memory: the byte written at its index, and every other index as before. -/
theorem Memory.read_write (m : Memory) (a : Nat) (b : Byte) (c : Nat) (hm : Memory.wf m = true) :
    Memory.read (Memory.write m a b) c = if c = a then b else Memory.read m c := by
  unfold Memory.write
  split
  · rename_i h; rw [Memory.read_erase m a c hm, h]
  · exact Memory.read_insert m a b c

/-- Every write keeps the canonical form. -/
theorem Memory.wf_write (m : Memory) (a : Nat) (b : Byte) (hm : Memory.wf m = true) :
    Memory.wf (Memory.write m a b) = true := by
  unfold Memory.write
  split
  · exact Memory.wf_erase m a hm
  · rename_i h; exact Memory.wf_insert m a b h hm

/-- A write below `n` keeps every listed index below `n`. -/
theorem Memory.below_write (n : Nat) (m : Memory) (a : Nat) (b : Byte) (ha : a < n) (hm : Memory.below n m = true) :
    Memory.below n (Memory.write m a b) = true := by
  simp only [Memory.below, List.all_eq_true, decide_eq_true_eq] at hm ⊢
  unfold Memory.write
  split
  · exact fun c hc => hm c (Memory.mem_erase m a c hc)
  · intro c hc
    rcases Memory.mem_insert m a b c hc with rfl | hc
    · exact ha
    · exact hm c hc

/-- Two canonical memories that read the same everywhere are the same list: equal memories are equal data. -/
theorem Memory.ext_read (m n : Memory) (hm : Memory.wf m = true) (hn : Memory.wf n = true)
    (h : ∀ a, Memory.read m a = Memory.read n a) : m = n := by
  induction m generalizing n with
  | nil =>
    cases n with
    | nil => rfl
    | cons d n =>
      have := h d.1
      obtain ⟨h1, -, -⟩ := (Memory.wf_cons d.1 d.2 n).1 hn
      simp [Memory.read] at this
      exact absurd this.symm h1
  | cons c m ih =>
    obtain ⟨a, b⟩ := c
    obtain ⟨h1, h2, h3⟩ := (Memory.wf_cons a b m).1 hm
    cases n with
    | nil =>
      have := h a
      simp [Memory.read] at this
      exact absurd this h1
    | cons d n =>
      obtain ⟨a', b'⟩ := d
      obtain ⟨g1, g2, g3⟩ := (Memory.wf_cons a' b' n).1 hn
      have key : a = a' := by
        rcases Nat.lt_trichotomy a a' with hlt | heq | hgt
        · have := h a
          rw [Memory.read_cons, if_pos rfl, Memory.read_cons, if_neg (by omega),
            Memory.read_below n a (fun c hc => Nat.lt_trans hlt (g2 c hc))] at this
          exact absurd this h1
        · exact heq
        · have := h a'
          rw [Memory.read_cons, if_neg (by omega), Memory.read_cons, if_pos rfl,
            Memory.read_below m a' (fun c hc => Nat.lt_trans hgt (h2 c hc))] at this
          exact absurd this.symm g1
      subst key
      have hb : b = b' := by have := h a; simpa [Memory.read_cons] using this
      subst hb
      congr 1
      refine ih n h3 g3 (fun e => ?_)
      have := h e
      by_cases he : a = e
      · subst he; rw [Memory.read_below m a h2, Memory.read_below n a g2]
      · simpa [Memory.read_cons, he] using this

end Sys2Proof.Machine
end

