-- ==== Sys2Proof/Laws/State.lean ====
section
/-! SUPPORT. The small lemmas of the state: for each update, what each field of the new state is, true by rfl. -/

namespace Sys2Proof.Machine

/-! `emit E` changes the output history only (00_scope.md R15). -/

@[simp] theorem State.emit_build (e : Event) (s : State) : (s.emit e).build = s.build := rfl
@[simp] theorem State.emit_mtx (e : Event) (s : State) : (s.emit e).mtx = s.mtx := rfl
@[simp] theorem State.emit_icn (e : Event) (s : State) : (s.emit e).icn = s.icn := rfl
@[simp] theorem State.emit_dirty (e : Event) (s : State) : (s.emit e).dirty = s.dirty := rfl
@[simp] theorem State.emit_fb (e : Event) (s : State) : (s.emit e).fb = s.fb := rfl
@[simp] theorem State.emit_status (e : Event) (s : State) : (s.emit e).status = s.status := rfl
@[simp] theorem State.emit_fault (e : Event) (s : State) : (s.emit e).fault = s.fault := rfl
@[simp] theorem State.emit_history (e : Event) (s : State) : (s.emit e).history = s.history ++ [e] := rfl
@[simp] theorem State.emit_stg (e : Event) (s : State) : (s.emit e).stg = s.stg := rfl
@[simp] theorem State.emit_cs (e : Event) (s : State) : (s.emit e).cs = s.cs := rfl
@[simp] theorem State.emit_file (e : Event) (s : State) : (s.emit e).file = s.file := rfl
@[simp] theorem State.emit_input (e : Event) (s : State) : (s.emit e).input = s.input := rfl
@[simp] theorem State.emit_draws (e : Event) (s : State) : (s.emit e).draws = s.draws := rfl
@[simp] theorem State.emit_pending (e : Event) (s : State) : (s.emit e).pending = s.pending := rfl
@[simp] theorem State.emit_session (e : Event) (s : State) : (s.emit e).session = s.session := rfl

/-! `done` changes `STATUS` only (R15). -/

@[simp] theorem State.complete_build (s : State) : (s.complete).build = s.build := rfl
@[simp] theorem State.complete_mtx (s : State) : (s.complete).mtx = s.mtx := rfl
@[simp] theorem State.complete_icn (s : State) : (s.complete).icn = s.icn := rfl
@[simp] theorem State.complete_dirty (s : State) : (s.complete).dirty = s.dirty := rfl
@[simp] theorem State.complete_fb (s : State) : (s.complete).fb = s.fb := rfl
@[simp] theorem State.complete_status (s : State) : (s.complete).status = .ok := rfl
@[simp] theorem State.complete_fault (s : State) : (s.complete).fault = s.fault := rfl
@[simp] theorem State.complete_history (s : State) : (s.complete).history = s.history := rfl
@[simp] theorem State.complete_stg (s : State) : (s.complete).stg = s.stg := rfl
@[simp] theorem State.complete_cs (s : State) : (s.complete).cs = s.cs := rfl
@[simp] theorem State.complete_file (s : State) : (s.complete).file = s.file := rfl
@[simp] theorem State.complete_input (s : State) : (s.complete).input = s.input := rfl
@[simp] theorem State.complete_draws (s : State) : (s.complete).draws = s.draws := rfl
@[simp] theorem State.complete_pending (s : State) : (s.complete).pending = s.pending := rfl
@[simp] theorem State.complete_session (s : State) : (s.complete).session = s.session := rfl

/-! `raise S` changes `STATUS` and `FAULT` only (60_exceptions.md R243). -/

@[simp] theorem State.raise_build (st : Status) (s : State) : (s.raise st).build = s.build := rfl
@[simp] theorem State.raise_mtx (st : Status) (s : State) : (s.raise st).mtx = s.mtx := rfl
@[simp] theorem State.raise_icn (st : Status) (s : State) : (s.raise st).icn = s.icn := rfl
@[simp] theorem State.raise_dirty (st : Status) (s : State) : (s.raise st).dirty = s.dirty := rfl
@[simp] theorem State.raise_fb (st : Status) (s : State) : (s.raise st).fb = s.fb := rfl
@[simp] theorem State.raise_status (st : Status) (s : State) : (s.raise st).status = st := rfl
@[simp] theorem State.raise_fault (st : Status) (s : State) : (s.raise st).fault = st.latch s.fault := rfl
@[simp] theorem State.raise_history (st : Status) (s : State) : (s.raise st).history = s.history := rfl
@[simp] theorem State.raise_stg (st : Status) (s : State) : (s.raise st).stg = s.stg := rfl
@[simp] theorem State.raise_cs (st : Status) (s : State) : (s.raise st).cs = s.cs := rfl
@[simp] theorem State.raise_file (st : Status) (s : State) : (s.raise st).file = s.file := rfl
@[simp] theorem State.raise_input (st : Status) (s : State) : (s.raise st).input = s.input := rfl
@[simp] theorem State.raise_draws (st : Status) (s : State) : (s.raise st).draws = s.draws := rfl
@[simp] theorem State.raise_pending (st : Status) (s : State) : (s.raise st).pending = s.pending := rfl
@[simp] theorem State.raise_session (st : Status) (s : State) : (s.raise st).session = s.session := rfl

/-! Setting `DIRTY` changes nothing else. -/

@[simp] theorem State.markDirty_build (s : State) : (s.markDirty).build = s.build := rfl
@[simp] theorem State.markDirty_mtx (s : State) : (s.markDirty).mtx = s.mtx := rfl
@[simp] theorem State.markDirty_icn (s : State) : (s.markDirty).icn = s.icn := rfl
@[simp] theorem State.markDirty_dirty (s : State) : (s.markDirty).dirty = true := rfl
@[simp] theorem State.markDirty_fb (s : State) : (s.markDirty).fb = s.fb := rfl
@[simp] theorem State.markDirty_status (s : State) : (s.markDirty).status = s.status := rfl
@[simp] theorem State.markDirty_fault (s : State) : (s.markDirty).fault = s.fault := rfl
@[simp] theorem State.markDirty_history (s : State) : (s.markDirty).history = s.history := rfl
@[simp] theorem State.markDirty_stg (s : State) : (s.markDirty).stg = s.stg := rfl
@[simp] theorem State.markDirty_cs (s : State) : (s.markDirty).cs = s.cs := rfl
@[simp] theorem State.markDirty_file (s : State) : (s.markDirty).file = s.file := rfl
@[simp] theorem State.markDirty_input (s : State) : (s.markDirty).input = s.input := rfl
@[simp] theorem State.markDirty_draws (s : State) : (s.markDirty).draws = s.draws := rfl
@[simp] theorem State.markDirty_pending (s : State) : (s.markDirty).pending = s.pending := rfl
@[simp] theorem State.markDirty_session (s : State) : (s.markDirty).session = s.session := rfl

/-! Clearing `DIRTY` changes nothing else. -/

@[simp] theorem State.clearDirty_build (s : State) : (s.clearDirty).build = s.build := rfl
@[simp] theorem State.clearDirty_mtx (s : State) : (s.clearDirty).mtx = s.mtx := rfl
@[simp] theorem State.clearDirty_icn (s : State) : (s.clearDirty).icn = s.icn := rfl
@[simp] theorem State.clearDirty_dirty (s : State) : (s.clearDirty).dirty = false := rfl
@[simp] theorem State.clearDirty_fb (s : State) : (s.clearDirty).fb = s.fb := rfl
@[simp] theorem State.clearDirty_status (s : State) : (s.clearDirty).status = s.status := rfl
@[simp] theorem State.clearDirty_fault (s : State) : (s.clearDirty).fault = s.fault := rfl
@[simp] theorem State.clearDirty_history (s : State) : (s.clearDirty).history = s.history := rfl
@[simp] theorem State.clearDirty_stg (s : State) : (s.clearDirty).stg = s.stg := rfl
@[simp] theorem State.clearDirty_cs (s : State) : (s.clearDirty).cs = s.cs := rfl
@[simp] theorem State.clearDirty_file (s : State) : (s.clearDirty).file = s.file := rfl
@[simp] theorem State.clearDirty_input (s : State) : (s.clearDirty).input = s.input := rfl
@[simp] theorem State.clearDirty_draws (s : State) : (s.clearDirty).draws = s.draws := rfl
@[simp] theorem State.clearDirty_pending (s : State) : (s.clearDirty).pending = s.pending := rfl
@[simp] theorem State.clearDirty_session (s : State) : (s.clearDirty).session = s.session := rfl

/-! Presenting a command changes what the environment holds ready, and nothing else. -/

@[simp] theorem State.present_build (stream : List Byte) (d : Draws) (s : State) : (s.present stream d).build = s.build := rfl
@[simp] theorem State.present_mtx (stream : List Byte) (d : Draws) (s : State) : (s.present stream d).mtx = s.mtx := rfl
@[simp] theorem State.present_icn (stream : List Byte) (d : Draws) (s : State) : (s.present stream d).icn = s.icn := rfl
@[simp] theorem State.present_dirty (stream : List Byte) (d : Draws) (s : State) : (s.present stream d).dirty = s.dirty := rfl
@[simp] theorem State.present_fb (stream : List Byte) (d : Draws) (s : State) : (s.present stream d).fb = s.fb := rfl
@[simp] theorem State.present_status (stream : List Byte) (d : Draws) (s : State) : (s.present stream d).status = s.status := rfl
@[simp] theorem State.present_fault (stream : List Byte) (d : Draws) (s : State) : (s.present stream d).fault = s.fault := rfl
@[simp] theorem State.present_history (stream : List Byte) (d : Draws) (s : State) : (s.present stream d).history = s.history := rfl
@[simp] theorem State.present_stg (stream : List Byte) (d : Draws) (s : State) : (s.present stream d).stg = s.stg := rfl
@[simp] theorem State.present_cs (stream : List Byte) (d : Draws) (s : State) : (s.present stream d).cs = s.cs := rfl
@[simp] theorem State.present_file (stream : List Byte) (d : Draws) (s : State) : (s.present stream d).file = s.file := rfl
@[simp] theorem State.present_input (stream : List Byte) (d : Draws) (s : State) : (s.present stream d).input = stream := rfl
@[simp] theorem State.present_draws (stream : List Byte) (d : Draws) (s : State) : (s.present stream d).draws = d := rfl
@[simp] theorem State.present_pending (stream : List Byte) (d : Draws) (s : State) : (s.present stream d).pending = s.pending := rfl
@[simp] theorem State.present_session (stream : List Byte) (d : Draws) (s : State) : (s.present stream d).session = s.session := rfl

/-! Reset changes block-owned state only (70_reset_and_hazards.md R260). -/

@[simp] theorem State.applyReset_build (s : State) : (s.applyReset).build = s.build := rfl
@[simp] theorem State.applyReset_mtx (s : State) : (s.applyReset).mtx = Matrix.clear := rfl
@[simp] theorem State.applyReset_icn (s : State) : (s.applyReset).icn = List.replicate s.build.iconNum false := rfl
@[simp] theorem State.applyReset_dirty (s : State) : (s.applyReset).dirty = true := rfl
@[simp] theorem State.applyReset_fb (s : State) : (s.applyReset).fb = none := rfl
@[simp] theorem State.applyReset_status (s : State) : (s.applyReset).status = .ok := rfl
@[simp] theorem State.applyReset_fault (s : State) : (s.applyReset).fault = .none := rfl
@[simp] theorem State.applyReset_history (s : State) : (s.applyReset).history = [] := rfl
@[simp] theorem State.applyReset_stg (s : State) : (s.applyReset).stg = [] := rfl
@[simp] theorem State.applyReset_cs (s : State) : (s.applyReset).cs = s.cs := rfl
@[simp] theorem State.applyReset_file (s : State) : (s.applyReset).file = s.file := rfl
@[simp] theorem State.applyReset_input (s : State) : (s.applyReset).input = s.input := rfl
@[simp] theorem State.applyReset_draws (s : State) : (s.applyReset).draws = s.draws := rfl
@[simp] theorem State.applyReset_pending (s : State) : (s.applyReset).pending = s.pending := rfl
@[simp] theorem State.applyReset_session (s : State) : (s.applyReset).session = s.session := rfl

/-! An order of the host changes what is pending, and nothing else. -/

@[simp] theorem State.order_build (l : List Stimulus) (s : State) : (s.order l).build = s.build := rfl
@[simp] theorem State.order_mtx (l : List Stimulus) (s : State) : (s.order l).mtx = s.mtx := rfl
@[simp] theorem State.order_icn (l : List Stimulus) (s : State) : (s.order l).icn = s.icn := rfl
@[simp] theorem State.order_dirty (l : List Stimulus) (s : State) : (s.order l).dirty = s.dirty := rfl
@[simp] theorem State.order_fb (l : List Stimulus) (s : State) : (s.order l).fb = s.fb := rfl
@[simp] theorem State.order_status (l : List Stimulus) (s : State) : (s.order l).status = s.status := rfl
@[simp] theorem State.order_fault (l : List Stimulus) (s : State) : (s.order l).fault = s.fault := rfl
@[simp] theorem State.order_history (l : List Stimulus) (s : State) : (s.order l).history = s.history := rfl
@[simp] theorem State.order_stg (l : List Stimulus) (s : State) : (s.order l).stg = s.stg := rfl
@[simp] theorem State.order_cs (l : List Stimulus) (s : State) : (s.order l).cs = s.cs := rfl
@[simp] theorem State.order_file (l : List Stimulus) (s : State) : (s.order l).file = s.file := rfl
@[simp] theorem State.order_input (l : List Stimulus) (s : State) : (s.order l).input = s.input := rfl
@[simp] theorem State.order_draws (l : List Stimulus) (s : State) : (s.order l).draws = s.draws := rfl
@[simp] theorem State.order_pending (l : List Stimulus) (s : State) : (s.order l).pending = l ++ s.pending := rfl
@[simp] theorem State.order_session (l : List Stimulus) (s : State) : (s.order l).session = s.session := rfl

/-! A change of the host's session changes nothing else. -/

@[simp] theorem State.withSession_build (σ : Session) (s : State) : (s.withSession σ).build = s.build := rfl
@[simp] theorem State.withSession_mtx (σ : Session) (s : State) : (s.withSession σ).mtx = s.mtx := rfl
@[simp] theorem State.withSession_icn (σ : Session) (s : State) : (s.withSession σ).icn = s.icn := rfl
@[simp] theorem State.withSession_dirty (σ : Session) (s : State) : (s.withSession σ).dirty = s.dirty := rfl
@[simp] theorem State.withSession_fb (σ : Session) (s : State) : (s.withSession σ).fb = s.fb := rfl
@[simp] theorem State.withSession_status (σ : Session) (s : State) : (s.withSession σ).status = s.status := rfl
@[simp] theorem State.withSession_fault (σ : Session) (s : State) : (s.withSession σ).fault = s.fault := rfl
@[simp] theorem State.withSession_history (σ : Session) (s : State) : (s.withSession σ).history = s.history := rfl
@[simp] theorem State.withSession_stg (σ : Session) (s : State) : (s.withSession σ).stg = s.stg := rfl
@[simp] theorem State.withSession_cs (σ : Session) (s : State) : (s.withSession σ).cs = s.cs := rfl
@[simp] theorem State.withSession_file (σ : Session) (s : State) : (s.withSession σ).file = s.file := rfl
@[simp] theorem State.withSession_input (σ : Session) (s : State) : (s.withSession σ).input = s.input := rfl
@[simp] theorem State.withSession_draws (σ : Session) (s : State) : (s.withSession σ).draws = s.draws := rfl
@[simp] theorem State.withSession_pending (σ : Session) (s : State) : (s.withSession σ).pending = s.pending := rfl
@[simp] theorem State.withSession_session (σ : Session) (s : State) : (s.withSession σ).session = σ := rfl

/-! A change of mode changes the session, and nothing else. -/

@[simp] theorem State.enter_build (m : Mode) (s : State) : (s.enter m).build = s.build := rfl
@[simp] theorem State.enter_mtx (m : Mode) (s : State) : (s.enter m).mtx = s.mtx := rfl
@[simp] theorem State.enter_icn (m : Mode) (s : State) : (s.enter m).icn = s.icn := rfl
@[simp] theorem State.enter_dirty (m : Mode) (s : State) : (s.enter m).dirty = s.dirty := rfl
@[simp] theorem State.enter_fb (m : Mode) (s : State) : (s.enter m).fb = s.fb := rfl
@[simp] theorem State.enter_status (m : Mode) (s : State) : (s.enter m).status = s.status := rfl
@[simp] theorem State.enter_fault (m : Mode) (s : State) : (s.enter m).fault = s.fault := rfl
@[simp] theorem State.enter_history (m : Mode) (s : State) : (s.enter m).history = s.history := rfl
@[simp] theorem State.enter_stg (m : Mode) (s : State) : (s.enter m).stg = s.stg := rfl
@[simp] theorem State.enter_cs (m : Mode) (s : State) : (s.enter m).cs = s.cs := rfl
@[simp] theorem State.enter_file (m : Mode) (s : State) : (s.enter m).file = s.file := rfl
@[simp] theorem State.enter_input (m : Mode) (s : State) : (s.enter m).input = s.input := rfl
@[simp] theorem State.enter_draws (m : Mode) (s : State) : (s.enter m).draws = s.draws := rfl
@[simp] theorem State.enter_pending (m : Mode) (s : State) : (s.enter m).pending = s.pending := rfl
@[simp] theorem State.enter_session (m : Mode) (s : State) : (s.enter m).session = { s.session with mode := m } := rfl

/-! A change of volume changes the session, and nothing else. -/

@[simp] theorem State.setVolume_build (v : BitVec 8) (s : State) : (s.setVolume v).build = s.build := rfl
@[simp] theorem State.setVolume_mtx (v : BitVec 8) (s : State) : (s.setVolume v).mtx = s.mtx := rfl
@[simp] theorem State.setVolume_icn (v : BitVec 8) (s : State) : (s.setVolume v).icn = s.icn := rfl
@[simp] theorem State.setVolume_dirty (v : BitVec 8) (s : State) : (s.setVolume v).dirty = s.dirty := rfl
@[simp] theorem State.setVolume_fb (v : BitVec 8) (s : State) : (s.setVolume v).fb = s.fb := rfl
@[simp] theorem State.setVolume_status (v : BitVec 8) (s : State) : (s.setVolume v).status = s.status := rfl
@[simp] theorem State.setVolume_fault (v : BitVec 8) (s : State) : (s.setVolume v).fault = s.fault := rfl
@[simp] theorem State.setVolume_history (v : BitVec 8) (s : State) : (s.setVolume v).history = s.history := rfl
@[simp] theorem State.setVolume_stg (v : BitVec 8) (s : State) : (s.setVolume v).stg = s.stg := rfl
@[simp] theorem State.setVolume_cs (v : BitVec 8) (s : State) : (s.setVolume v).cs = s.cs := rfl
@[simp] theorem State.setVolume_file (v : BitVec 8) (s : State) : (s.setVolume v).file = s.file := rfl
@[simp] theorem State.setVolume_input (v : BitVec 8) (s : State) : (s.setVolume v).input = s.input := rfl
@[simp] theorem State.setVolume_draws (v : BitVec 8) (s : State) : (s.setVolume v).draws = s.draws := rfl
@[simp] theorem State.setVolume_pending (v : BitVec 8) (s : State) : (s.setVolume v).pending = s.pending := rfl
@[simp] theorem State.setVolume_session (v : BitVec 8) (s : State) : (s.setVolume v).session = { s.session with volume := v } := rfl

/-! A poll of the Help line changes the session, and nothing else. -/

@[simp] theorem State.pollHelpLine_build (help : Bool) (s : State) : (s.pollHelpLine help).build = s.build := rfl
@[simp] theorem State.pollHelpLine_mtx (help : Bool) (s : State) : (s.pollHelpLine help).mtx = s.mtx := rfl
@[simp] theorem State.pollHelpLine_icn (help : Bool) (s : State) : (s.pollHelpLine help).icn = s.icn := rfl
@[simp] theorem State.pollHelpLine_dirty (help : Bool) (s : State) : (s.pollHelpLine help).dirty = s.dirty := rfl
@[simp] theorem State.pollHelpLine_fb (help : Bool) (s : State) : (s.pollHelpLine help).fb = s.fb := rfl
@[simp] theorem State.pollHelpLine_status (help : Bool) (s : State) : (s.pollHelpLine help).status = s.status := rfl
@[simp] theorem State.pollHelpLine_fault (help : Bool) (s : State) : (s.pollHelpLine help).fault = s.fault := rfl
@[simp] theorem State.pollHelpLine_history (help : Bool) (s : State) : (s.pollHelpLine help).history = s.history := rfl
@[simp] theorem State.pollHelpLine_stg (help : Bool) (s : State) : (s.pollHelpLine help).stg = s.stg := rfl
@[simp] theorem State.pollHelpLine_cs (help : Bool) (s : State) : (s.pollHelpLine help).cs = s.cs := rfl
@[simp] theorem State.pollHelpLine_file (help : Bool) (s : State) : (s.pollHelpLine help).file = s.file := rfl
@[simp] theorem State.pollHelpLine_input (help : Bool) (s : State) : (s.pollHelpLine help).input = s.input := rfl
@[simp] theorem State.pollHelpLine_draws (help : Bool) (s : State) : (s.pollHelpLine help).draws = s.draws := rfl
@[simp] theorem State.pollHelpLine_pending (help : Bool) (s : State) : (s.pollHelpLine help).pending = s.pending := rfl
@[simp] theorem State.pollHelpLine_session (help : Bool) (s : State) : (s.pollHelpLine help).session = { s.session with polledHelp := help } := rfl

/-! Sampling changes the samples, the edges, the forwarded levels and the polled Help line (44_host_session.md R204, R206). -/

@[simp] theorem Session.sample_mode (keys : Buttons) (σ : Session) : (σ.sample keys).mode = σ.mode := rfl
@[simp] theorem Session.sample_previous (keys : Buttons) (σ : Session) : (σ.sample keys).previous = σ.current := rfl
@[simp] theorem Session.sample_current (keys : Buttons) (σ : Session) : (σ.sample keys).current = keys := rfl
@[simp] theorem Session.sample_edges (keys : Buttons) (σ : Session) : (σ.sample keys).edges = σ.current.rising keys := rfl
@[simp] theorem Session.sample_levels (keys : Buttons) (σ : Session) : (σ.sample keys).levels = keys.levels := rfl
@[simp] theorem Session.sample_polledHelp (keys : Buttons) (σ : Session) : (σ.sample keys).polledHelp = keys.help := rfl
@[simp] theorem Session.sample_agenda (keys : Buttons) (σ : Session) : (σ.sample keys).agenda = σ.agenda := rfl
@[simp] theorem Session.sample_held (keys : Buttons) (σ : Session) : (σ.sample keys).held = σ.held := rfl
@[simp] theorem Session.sample_volume (keys : Buttons) (σ : Session) : (σ.sample keys).volume = σ.volume := rfl

/-! A tick samples, and adds to the agenda and to what is held (R206). -/

@[simp] theorem Session.tick_mode (b : Build) (t : Tick) (σ : Session) : (σ.tick b t).mode = σ.mode := rfl
@[simp] theorem Session.tick_previous (b : Build) (t : Tick) (σ : Session) : (σ.tick b t).previous = σ.current := rfl
@[simp] theorem Session.tick_current (b : Build) (t : Tick) (σ : Session) : (σ.tick b t).current = t.keys := rfl
@[simp] theorem Session.tick_edges (b : Build) (t : Tick) (σ : Session) : (σ.tick b t).edges = σ.current.rising t.keys := rfl
@[simp] theorem Session.tick_levels (b : Build) (t : Tick) (σ : Session) : (σ.tick b t).levels = t.keys.levels := rfl
@[simp] theorem Session.tick_polledHelp (b : Build) (t : Tick) (σ : Session) : (σ.tick b t).polledHelp = t.keys.help := rfl
@[simp] theorem Session.tick_agenda (b : Build) (t : Tick) (σ : Session) : (σ.tick b t).agenda = σ.agenda ++ t.actions b (σ.sample t.keys) := rfl
@[simp] theorem Session.tick_held (b : Build) (t : Tick) (σ : Session) : (σ.tick b t).held = σ.held ++ t.work := rfl
@[simp] theorem Session.tick_volume (b : Build) (t : Tick) (σ : Session) : (σ.tick b t).volume = σ.volume := rfl

end Sys2Proof.Machine
end

