-- ==== Sys2Proof/Laws/Ops.lean ====
section
/-! SUPPORT. One lemma for each shared operation, which says once everything it can do; later proofs cite these and do not unfold. -/

namespace Sys2Proof.Machine

/-! ## Acceptance and statuses -/

theorem accept_ready (body : State → Host.Outcome State Fault Refusal) (s : State) (h : s.fault = .none) :
    accept body s = body s := by
  simp [accept, h]

theorem accept_halted (body : State → Host.Outcome State Fault Refusal) (s : State) (h : s.fault ≠ .none) :
    accept body s = .next s := by
  unfold accept
  split <;> first | rfl | contradiction

/-- An accepted command answers what its body answers; a discarded one leaves the state as it is (43_system.md R192). -/
theorem accept_next (body : State → Host.Outcome State Fault Refusal) (s t : State) (h : accept body s = .next t) :
    (s.fault = .none ∧ body s = .next t) ∨ (s.fault ≠ .none ∧ t = s) := by
  by_cases hf : s.fault = .none
  · exact .inl ⟨hf, by rwa [accept_ready body s hf] at h⟩
  · rw [accept_halted body s hf] at h
    cases h
    exact .inr ⟨hf, rfl⟩

theorem rejectReserved_next (s : State) :
    rejectReserved s = .next (if s.fault = .none then s.raise .illegalCommand else s) := by
  by_cases hf : s.fault = .none
  · simp [rejectReserved, accept_ready _ s hf, hf]
  · simp [rejectReserved, accept_halted _ s hf, hf]

/-- The host acts while `FAULT` is `NONE`, and does nothing more after a terminal fault (44_host_session.md R215). -/
theorem hostAct_cases (a : HostAct) (s : State) :
    (s.fault = .none ∧ hostAct a s = hostDo a s) ∨ (s.fault ≠ .none ∧ hostAct a s = s) := by
  unfold hostAct
  split <;> simp [*]

/-- The actions of a tick hold the action of a session line exactly once when the line acts, and not at all when it does not, in
whatever order the tick serves them (44_host_session.md R206, R211). -/
theorem Tick.count_actions (b : Build) (t : Tick) (σ : Session) (l : SessionButton) :
    (t.actions b σ).count (l.act t.draws) = if σ.acts b l then 1 else 0 := by
  cases hs : σ.acts b .save <;> cases hp : σ.acts b .pause <;> cases hh : σ.acts b .help <;>
    cases l <;> cases ho : t.order <;>
      simp [Tick.actions, ServiceOrder.lines, SessionButton.act, hs, hp, hh, ho]

/-- A recoverable status leaves `FAULT`; a terminal one latches its own value (60_exceptions.md R231, R233). -/
theorem Status.latch_cases (st : Status) (f : FaultReg) :
    (st = .malformedRom ∧ st.latch f = .malformedRom) ∨ (st = .coreHalt ∧ st.latch f = .coreHalt) ∨
      (st ≠ .malformedRom ∧ st ≠ .coreHalt ∧ st.latch f = f) := by
  cases st <;> simp [Status.latch]

/-! ## Operands -/

theorem inMatrix_iff (x y : Nat) : inMatrix x y = true ↔ x < 32 ∧ y < 16 := by
  simp [inMatrix, matrixWidth, matrixHeight]

theorem inIcons_iff (b : Build) (i : Nat) : inIcons b i = true ↔ i < b.iconNum := by simp [inIcons]

/-- A write of one cell: that cell reads the value written, every other cell reads as before, and a write out of range changes
nothing (20_memory.md R53). -/
theorem Matrix.cell_setCell (m : Matrix) (x y : Nat) (val : Bool) (x' y' : Nat) (h : x < 32 ∧ y < 16) :
    (m.setCell x y val).cell x' y' = if x' = x ∧ y' = y then val else m.cell x' y' := by
  unfold Matrix.setCell Matrix.cell
  rw [dif_pos h]
  by_cases h' : x' < matrixWidth ∧ y' < matrixHeight
  · rw [dif_pos h', dif_pos h']
    by_cases hy : y' = y
    · subst hy
      by_cases hx : x' = x
      · subst hx; simp
      · simp [hx, Ne.symm hx]
    · simp [hy, Ne.symm hy]
  · rw [dif_neg h', dif_neg h']
    split
    · rename_i e; exact absurd (e.1 ▸ e.2 ▸ h) h'
    · rfl

theorem Matrix.setCell_out (m : Matrix) (x y : Nat) (val : Bool) (h : ¬(x < 32 ∧ y < 16)) : m.setCell x y val = m := by
  unfold Matrix.setCell
  exact dif_neg h

theorem iconAt_set (icn : List Bool) (i : Nat) (val : Bool) (j : Nat) (h : i < icn.length) :
    iconAt (icn.set i val) j = if j = i then val else iconAt icn j := by
  unfold iconAt
  by_cases hj : j = i
  · subst hj; simp [h]
  · simp [hj, Ne.symm hj]

/-- Reading `len` bytes of the stream: none while it is short, else its first `len` bytes and the rest (20_memory.md R51). -/
theorem takeStream_cases (len : Nat) (input : List Byte) :
    (input.length < len ∧ takeStream len input = none) ∨
      (len ≤ input.length ∧ takeStream len input = some (input.take len, input.drop len)) := by
  unfold takeStream
  split
  · exact .inl ⟨by assumption, rfl⟩
  · exact .inr ⟨by omega, rfl⟩

/-- PACK and UNPACK once accepted: a length that is not a multiple is `MalformedRom`; else the stream is short, or it is read and the
one event emitted (40_romcodec.md R121, R122). -/
theorem transcode_cases (group len : Nat) (result : List Byte → Event) (s : State) :
    (len % group ≠ 0 ∧ transcode group len result s = .next (s.raise .malformedRom)) ∨
    (len % group = 0 ∧ s.input.length < len ∧ transcode group len result s = .fault .streamStarved) ∨
    (len % group = 0 ∧ len ≤ s.input.length ∧
      transcode group len result s =
        .next (({ s with input := s.input.drop len }.emit (result (s.input.take len))).complete)) := by
  unfold transcode
  by_cases h : len % group = 0
  · rcases takeStream_cases len s.input with ⟨h1, h2⟩ | ⟨h1, h2⟩
    · simp [h, h1, h2]
    · simp [h, h2, Nat.not_lt.2 h1, h1]
  · simp [h]

/-! ## The framebuffer -/

@[simp] theorem framebuffer_length (b : Build) (m : Matrix) (icn : List Bool) :
    (framebuffer b m icn).length = b.fbLen := by
  simp [framebuffer, Build.fbLen, matrixWidth, matrixHeight]

/-- Cell `32*y + x` holds matrix cell `(x, y)` (30_encoding.md R97). -/
theorem framebuffer_matrix (b : Build) (m : Matrix) (icn : List Bool) (x y : Nat) (hx : x < 32) (hy : y < 16) :
    (framebuffer b m icn)[32 * y + x]? = some (m.cell x y) := by
  unfold framebuffer
  rw [List.getElem?_append_left (by simp [matrixWidth, matrixHeight]; omega)]
  rw [List.getElem?_map, List.getElem?_range (by simp [matrixWidth, matrixHeight]; omega)]
  have h1 : (32 * y + x) % 32 = x := by omega
  have h2 : (32 * y + x) / 32 = y := by omega
  simp [matrixWidth, h1, h2]

/-- Cell `512 + i` holds icon `i` (R97). -/
theorem framebuffer_icon (b : Build) (m : Matrix) (icn : List Bool) (i : Nat) (hi : i < b.iconNum) :
    (framebuffer b m icn)[512 + i]? = some (iconAt icn i) := by
  unfold framebuffer
  rw [List.getElem?_append_right (by simp [matrixWidth, matrixHeight])]
  simp [matrixWidth, matrixHeight, hi]

/-! ## Byte sequences -/

@[simp] theorem le_length (n v : Nat) : (le n v).length = n := by simp [le]

theorem le_succ (n v : Nat) : le (n + 1) v = BitVec.ofNat 8 v :: le n (v / 256) := by
  unfold le
  rw [List.range_succ_eq_map]
  simp only [List.map_cons, List.map_map, Nat.mul_zero, Nat.shiftRight_zero, List.cons.injEq, true_and]
  apply List.map_congr_left
  intro j _
  simp only [Function.comp, Nat.succ_eq_add_one]
  congr 1
  rw [Nat.shiftRight_eq_div_pow, Nat.shiftRight_eq_div_pow, Nat.div_div_eq_div_mul]
  congr 1
  rw [Nat.mul_add, Nat.pow_add, Nat.mul_comm]

/-- Reading back `n` bytes of a value gives the value when it fits them (00_scope.md R14). -/
theorem fromLe_le (n v : Nat) : fromLe (le n v) = v % 256 ^ n := by
  induction n generalizing v with
  | zero => simp [le, fromLe, Nat.mod_one]
  | succ n ih =>
    rw [le_succ, fromLe, ih, BitVec.toNat_ofNat, show 256 ^ (n + 1) = 256 * 256 ^ n from Nat.pow_succ',
      Nat.mod_mul (x := v) (a := 256) (b := 256 ^ n)]
    simp only [Nat.reducePow]

theorem wireImage_length (cs : CoreState) (f : Field) : (wireImage cs f).length = f.wireBytes := le_length _ _

/-! ## The environment -/

/-- A presented command word runs the command it decodes to, or is rejected as reserved. -/
theorem runCommand_cases (cw : CmdWord) (stream : List Byte) (d : Draws) (s : State) :
    (∃ i, decode cw = .ok i ∧ runCommand cw stream d s = exec i (s.present stream d)) ∨
    (∃ r, decode cw = .error r ∧ runCommand cw stream d s = rejectReserved (s.present stream d)) := by
  unfold runCommand
  cases h : decode cw with
  | ok i => exact .inl ⟨i, rfl, rfl⟩
  | error r => exact .inr ⟨r, rfl, rfl⟩

/-- An abandoned command leaves the state as it was, or leaves in `FILE` a prefix of the new blob (70_reset_and_hazards.md R260). -/
theorem abandon_cases (cw : CmdWord) (d : Draws) (written : Option Nat) (s : State) :
    abandon cw d written s = s ∨
    ∃ n, decode cw = .ok .save ∧ written = some n ∧ s.fault = .none ∧ d.accOk = true ∧ d.mountOk = true ∧
      abandon cw d written s = { s with file := some ((ser s.build s.cs).take (min n d.accepted)) } := by
  unfold abandon
  split
  · rename_i n h1 h2 h3 h4
    exact .inr ⟨n, h1, rfl, h2, h3, h4, rfl⟩
  · exact .inl rfl

end Sys2Proof.Machine
end

