-- ==== Sys2Proof/Laws/Exec.lean ====
section
/-! SUPPORT. What each command can do, said once: discarded while `FAULT` is set, else the cases of its own meaning. -/

namespace Sys2Proof.Machine

/-- While `FAULT` is not `NONE` every command is discarded (43_system.md R192). -/
theorem exec_discarded (i : Instr) (s : State) (h : s.fault ≠ .none) : exec i s = .next s := by
  cases i <;> simp only [exec, execPack, execUnpack, execSave, execLoad, execSetPixel, execSetIcon, execRender,
    execInvalidate, execHalt] <;> exact accept_halted _ s h

/-- An accepted command that is neither PACK nor UNPACK leaves this state. -/
def Instr.after : Instr → State → State
  | .pack _, s => s
  | .unpack _, s => s
  | .save, s => saveState s
  | .load, s => loadState s
  | .setPixel x y val, s => (pixelWrite x y val s).complete
  | .setIcon i val, s => (iconWrite i val s).complete
  | .render, s => (if s.dirty then redraw s else s).complete
  | .invalidate, s => s.markDirty.complete
  | .halt, s => s.raise .coreHalt

theorem exec_pack_ready (len : Nat) (s : State) (h : s.fault = .none) :
    exec (.pack len) s = transcode 4 len (fun bytes => .packOut (pack bytes)) s := accept_ready _ s h

theorem exec_unpack_ready (len : Nat) (s : State) (h : s.fault = .none) :
    exec (.unpack len) s = transcode 3 len (fun bytes => .unpackOut (unpack bytes)) s := accept_ready _ s h

/-- Every accepted command but PACK and UNPACK completes. -/
theorem exec_ready (i : Instr) (s : State) (h : s.fault = .none) (hp : ∀ len, i ≠ .pack len)
    (hu : ∀ len, i ≠ .unpack len) : exec i s = .next (Instr.after i s) := by
  cases i with
  | pack len => exact absurd rfl (hp len)
  | unpack len => exact absurd rfl (hu len)
  | _ =>
    simp only [exec, execSave, execLoad, execSetPixel, execSetIcon, execRender, execInvalidate, execHalt, Instr.after]
    exact accept_ready _ s h

/-- PACK or UNPACK that answers a next state has raised `MalformedRom`, or has read its stream and emitted its event. -/
theorem transcode_next (group len : Nat) (result : List Byte → Event) (s t : State)
    (h : transcode group len result s = .next t) :
    (len % group ≠ 0 ∧ t = s.raise .malformedRom) ∨
    (len % group = 0 ∧ len ≤ s.input.length ∧
      t = ({ s with input := s.input.drop len }.emit (result (s.input.take len))).complete) := by
  rcases transcode_cases group len result s with ⟨a, e⟩ | ⟨a, b, e⟩ | ⟨a, b, e⟩ <;> rw [e] at h <;> cases h
  · exact .inl ⟨a, rfl⟩
  · exact .inr ⟨a, b, rfl⟩

/-- What a command that answers a next state has done: it was discarded, or PACK or UNPACK transcoded, or it is another command and
left `Instr.after`. -/
theorem exec_next (i : Instr) (s t : State) (h : exec i s = .next t) :
    (s.fault ≠ .none ∧ t = s) ∨
    (s.fault = .none ∧
      ((∃ len, i = .pack len ∧ transcode 4 len (fun bytes => .packOut (pack bytes)) s = .next t) ∨
       (∃ len, i = .unpack len ∧ transcode 3 len (fun bytes => .unpackOut (unpack bytes)) s = .next t) ∨
       ((∀ len, i ≠ .pack len) ∧ (∀ len, i ≠ .unpack len) ∧ t = Instr.after i s))) := by
  by_cases hf : s.fault = .none
  · refine .inr ⟨hf, ?_⟩
    by_cases hp : ∃ len, i = .pack len
    · obtain ⟨len, rfl⟩ := hp
      rw [exec_pack_ready len s hf] at h
      exact .inl ⟨len, rfl, h⟩
    · by_cases hu : ∃ len, i = .unpack len
      · obtain ⟨len, rfl⟩ := hu
        rw [exec_unpack_ready len s hf] at h
        exact .inr (.inl ⟨len, rfl, h⟩)
      · have hp' : ∀ len, i ≠ .pack len := fun len e => hp ⟨len, e⟩
        have hu' : ∀ len, i ≠ .unpack len := fun len e => hu ⟨len, e⟩
        rw [exec_ready i s hf hp' hu'] at h
        cases h
        exact .inr (.inr ⟨hp', hu', rfl⟩)
  · rw [exec_discarded i s hf] at h
    cases h
    exact .inl ⟨hf, rfl⟩

/-- SAVE once accepted: one of four ends, in the order of its tests (41_statestore.md R143). -/
theorem saveState_cases (s : State) :
    (s.draws.accOk = false ∧ saveState s = s.raise .corruptState) ∨
    (s.draws.accOk = true ∧ s.draws.mountOk = false ∧ saveState s = s.raise .storageUnavailable) ∨
    (s.draws.accOk = true ∧ s.draws.mountOk = true ∧ s.build.stateBytes ≤ s.draws.accepted ∧
      saveState s = { s with file := some (ser s.build s.cs) }.complete) ∨
    (s.draws.accOk = true ∧ s.draws.mountOk = true ∧ s.draws.accepted < s.build.stateBytes ∧
      saveState s = { s with file := some ((ser s.build s.cs).take s.draws.accepted) }.raise .writeFailure) := by
  unfold saveState
  by_cases h1 : s.draws.accOk = true
  · by_cases h2 : s.draws.mountOk = true
    · by_cases h3 : s.build.stateBytes ≤ s.draws.accepted
      · simp [h1, h2, h3]
      · simp [h1, h2, h3, Nat.lt_of_not_le h3]
    · simp [h1, h2]
  · simp [h1]

/-- The state LOAD leaves when it commits the bytes of `blob` it obtained. -/
def State.loaded (blob : List Byte) (s : State) : State :=
  let got := blob.take (bytesGot s.build s.draws.readLimit blob)
  ({ s with stg := got, cs := commit s.build (de s.build got) s.cs }.emit .coreRefresh).complete

/-- LOAD once accepted: one of four ends, in the order of its tests; the two causes of `CorruptState` leave the same state
(41_statestore.md R144). -/
theorem loadState_cases (s : State) :
    (s.draws.mountOk = false ∧ loadState s = s.raise .storageUnavailable) ∨
    (s.draws.mountOk = true ∧ s.file = none ∧ loadState s = s.raise .notFound) ∨
    (∃ blob, s.draws.mountOk = true ∧ s.file = some blob ∧
      (bytesGot s.build s.draws.readLimit blob < s.build.stateBytes ∨ s.draws.accOk = false) ∧
      loadState s = { s with stg := blob.take (bytesGot s.build s.draws.readLimit blob) }.raise .corruptState) ∨
    (∃ blob, s.draws.mountOk = true ∧ s.file = some blob ∧
      s.build.stateBytes ≤ bytesGot s.build s.draws.readLimit blob ∧ s.draws.accOk = true ∧
      loadState s = s.loaded blob) := by
  unfold loadState
  by_cases h1 : s.draws.mountOk = true
  · rw [if_neg (by simp [h1])]
    split
    · rename_i hf
      exact .inr (.inl ⟨h1, hf, rfl⟩)
    · rename_i blob hf
      refine .inr (.inr ?_)
      simp only [loadBlob]
      by_cases h2 : bytesGot s.build s.draws.readLimit blob < s.build.stateBytes
      · exact .inl ⟨blob, h1, hf, .inl h2, if_pos h2⟩
      · rw [if_neg h2]
        by_cases h3 : s.draws.accOk = true
        · exact .inr ⟨blob, h1, hf, Nat.le_of_not_lt h2, h3, if_neg (by simp [h3])⟩
        · exact .inl ⟨blob, h1, hf, .inr (by simpa using h3), if_pos (by simpa using h3)⟩
  · exact .inl ⟨by simpa using h1, if_pos (by simpa using h1)⟩

/-- SETPIXEL once accepted: the one cell and the dirty flag, or nothing (42_compositor.md R171). -/
theorem pixelWrite_cases (x y : Nat) (val : Bool) (s : State) :
    (inMatrix x y = true ∧ pixelWrite x y val s = { s with mtx := s.mtx.setCell x y val, dirty := true }) ∨
    (inMatrix x y = false ∧ pixelWrite x y val s = s) := by
  unfold pixelWrite
  by_cases h : inMatrix x y = true
  · exact .inl ⟨h, if_pos h⟩
  · exact .inr ⟨by simpa using h, if_neg h⟩

/-- SETICON once accepted: the one entry and the dirty flag, or nothing (R172). -/
theorem iconWrite_cases (i : Nat) (val : Bool) (s : State) :
    (inIcons s.build i = true ∧ iconWrite i val s = { s with icn := s.icn.set i val, dirty := true }) ∨
    (inIcons s.build i = false ∧ iconWrite i val s = s) := by
  unfold iconWrite
  by_cases h : inIcons s.build i = true
  · exact .inl ⟨h, if_pos h⟩
  · exact .inr ⟨by simpa using h, if_neg h⟩

end Sys2Proof.Machine
end

