-- ==== Sys2Proof/Laws/PerInstr.lean ====
section
/-! SUPPORT. Statements made per command: where the encoder puts the opcode and the operand bits (30_encoding.md R100). -/

namespace Sys2Proof.Laws.EncodedFields

/-- The word of a well-formed command holds its opcode in bits 31:28 and its operand bits, and nothing else, in bits 27:0 (R100). -/
def Statement (i : Instr) : Prop :=
  i.wf = true → slice (encode i) 28 4 = i.opcode ∧ slice (encode i) 0 28 = i.operandBits

/-- An opcode below 16 over operand bits below 2^28 comes back whole. -/
theorem slices_of_bounds (i : Instr) (ho : i.opcode < 16) (hb : i.operandBits < 2 ^ 28) :
    slice (encode i) 28 4 = i.opcode ∧ slice (encode i) 0 28 = i.operandBits := by
  simp only [slice, encode, BitVec.toNat_ofNat]
  omega

theorem pack (len : Nat) : Statement (.pack len) := fun h =>
  slices_of_bounds _ (by simp [Instr.opcode]) (by simpa [Instr.operandBits, Instr.wf] using h)

theorem unpack (len : Nat) : Statement (.unpack len) := fun h =>
  slices_of_bounds _ (by simp [Instr.opcode]) (by simpa [Instr.operandBits, Instr.wf] using h)

theorem save : Statement .save := fun _ => by decide

theorem load : Statement .load := fun _ => by decide

theorem setPixel (x y : Nat) (val : Bool) : Statement (.setPixel x y val) := fun h => by
  refine slices_of_bounds _ (by simp [Instr.opcode]) ?_
  simp only [Instr.wf, Bool.and_eq_true, decide_eq_true_eq] at h
  have hv := Bool.toNat_lt val
  simp only [Instr.operandBits]
  omega

theorem setIcon (i : Nat) (val : Bool) : Statement (.setIcon i val) := fun h => by
  refine slices_of_bounds _ (by simp [Instr.opcode]) ?_
  simp only [Instr.wf, decide_eq_true_eq] at h
  have hv := Bool.toNat_lt val
  simp only [Instr.operandBits]
  omega

theorem render : Statement .render := fun _ => by decide

theorem invalidate : Statement .invalidate := fun _ => by decide

theorem halt : Statement .halt := fun _ => by decide

end Sys2Proof.Laws.EncodedFields
end

