-- ==== Sys2Proof/Laws/Record.lean ====
section
/-! SUPPORT. The state accessor and the field table, said once: what a field reads after a field is set, when two records are equal,
and which fields a record has. -/

namespace Sys2Proof.Machine

theorem CoreState.wf_iff (b : Build) (cs : CoreState) :
    cs.wf b = true ↔
      cs.slots.length = b.intSlots ∧ Memory.wf cs.mem = true ∧ Memory.below b.memImageBytes cs.mem = true := by
  simp [CoreState.wf, and_assoc]

theorem mem_recordFields (b : Build) (f : Field) : f ∈ recordFields b ↔ f.inRecord b := by
  cases f with
  | timer j => simp [recordFields, Field.inRecord, slotFields]; revert j; decide
  | slot k g => cases g <;> simp [recordFields, Field.inRecord, slotFields]
  | mem j => simp [recordFields, Field.inRecord, slotFields]
  | _ => simp [recordFields, Field.inRecord, slotFields]

/-- A field reads as a value of its width. -/
theorem accGet_lt (cs : CoreState) (f : Field) : accGet cs f < 2 ^ f.width := by
  cases f with
  | slot k g => cases g <;> exact BitVec.isLt _
  | _ => exact BitVec.isLt _

/-- A field's wire image has room for its width. -/
theorem width_le_wireBytes (f : Field) : f.width ≤ 8 * f.wireBytes := by
  unfold Field.wireBytes
  omega

/-- Setting a field of the record keeps the record well formed. -/
theorem accSet_wf (b : Build) (cs : CoreState) (f : Field) (v : Nat) (hf : f.inRecord b) (h : cs.wf b = true) :
    (accSet cs f v).wf b = true := by
  obtain ⟨h1, h2, h3⟩ := (CoreState.wf_iff b cs).1 h
  refine (CoreState.wf_iff b _).2 ?_
  cases f with
  | slot k g => exact ⟨by simp [accSet, h1], h2, h3⟩
  | mem j => exact ⟨h1, Memory.wf_write _ _ _ h2, Memory.below_write _ _ _ _ hf h3⟩
  | _ => exact ⟨h1, h2, h3⟩

/-- A field set reads as the low bits of the value; every other field reads as before (20_memory.md R55). -/
theorem accGet_accSet (b : Build) (cs : CoreState) (f g : Field) (v : Nat) (hf : f.inRecord b) (h : cs.wf b = true) :
    accGet (accSet cs f v) g = if g = f then v % 2 ^ f.width else accGet cs g := by
  obtain ⟨h1, h2, -⟩ := (CoreState.wf_iff b cs).1 h
  by_cases hgf : g = f
  · subst hgf
    rw [if_pos rfl]
    cases g with
    | timer j => simp [accSet, accGet, Field.width]
    | slot k s =>
      have hk : k < cs.slots.length := by rw [h1]; exact hf
      cases s <;> simp [accSet, accGet, Field.width, hk, IntSlot.set, IntSlot.get]
    | mem j => simp [accSet, accGet, Field.width, Memory.read_write _ _ _ _ h2]
    | _ => simp [accSet, accGet, Field.width]
  · rw [if_neg hgf]
    cases f <;> cases g <;> first | rfl | (exact absurd rfl hgf) | skip
    · rename_i j j'
      have : (j : Nat) ≠ j' := fun e => hgf (by rw [Fin.ext e])
      simp [accSet, accGet, this]
    · rename_i k s k' s'
      by_cases hk : k' = k
      · subst hk
        have hs : s' ≠ s := fun e => hgf (by rw [e])
        have hk : k' < cs.slots.length := by rw [h1]; exact hf
        simp only [accSet, accGet, List.getElem?_modify, if_true, List.getElem?_eq_getElem hk,
          Option.getD_some]
        cases s <;> cases s' <;> first | rfl | exact absurd rfl hs
      · simp only [accSet, accGet, List.getElem?_modify, if_neg (Ne.symm hk)]
        simp
    · rename_i j j'
      have hj : j' ≠ j := fun e => hgf (by rw [e])
      simp [accSet, accGet, Memory.read_write _ _ _ _ h2, hj]

/-- An index at or above the bound of a memory is unlisted. -/
theorem Memory.read_above (n a : Nat) (m : Memory) (hm : Memory.below n m = true) (ha : n ≤ a) :
    Memory.read m a = Memory.unlisted := by
  induction m with
  | nil => rfl
  | cons c m ih =>
    obtain ⟨a', b⟩ := c
    simp only [Memory.below, List.all_cons, Bool.and_eq_true, decide_eq_true_eq] at hm
    rw [Memory.read_cons, if_neg (by omega)]
    exact ih hm.2

/-- Two well-formed records of one build whose fields read the same are equal. -/
theorem CoreState.ext_fields (b : Build) (r s : CoreState) (hr : r.wf b = true) (hs : s.wf b = true)
    (h : ∀ f : Field, f.inRecord b → accGet r f = accGet s f) : r = s := by
  obtain ⟨r1, r2, r3⟩ := (CoreState.wf_iff b r).1 hr
  obtain ⟨s1, s2, s3⟩ := (CoreState.wf_iff b s).1 hs
  have hm : r.mem = s.mem := by
    refine Memory.ext_read _ _ r2 s2 (fun a => ?_)
    by_cases ha : a < b.memImageBytes
    · exact BitVec.eq_of_toNat_eq (h (.mem a) ha)
    · rw [Memory.read_above _ a _ r3 (by omega), Memory.read_above _ a _ s3 (by omega)]
  have hslots : r.slots = s.slots := by
    apply List.ext_getElem (by rw [r1, s1])
    intro k hk hk'
    have hkb : k < b.intSlots := by omega
    have e1 := h (.slot k .factor) hkb
    have e2 := h (.slot k .mask) hkb
    have e3 := h (.slot k .triggered) hkb
    have e4 := h (.slot k .vector) hkb
    simp only [accGet, List.getElem?_eq_getElem hk, List.getElem?_eq_getElem hk', Option.getD_some, IntSlot.get]
      at e1 e2 e3 e4
    rcases hA : r.slots[k] with ⟨a1, a2, a3, a4⟩
    rcases hB : s.slots[k] with ⟨b1, b2, b3, b4⟩
    simp only [hA, hB] at e1 e2 e3 e4
    simp only [IntSlot.mk.injEq]
    exact ⟨BitVec.eq_of_toNat_eq e1, BitVec.eq_of_toNat_eq e2, BitVec.eq_of_toNat_eq e3, BitVec.eq_of_toNat_eq e4⟩
  have ht : r.timers = s.timers := by
    ext i hi : 1
    exact BitVec.eq_of_toNat_eq (h (.timer ⟨i, hi⟩) trivial)
  cases r
  cases s
  simp only [CoreState.mk.injEq]
  exact ⟨BitVec.eq_of_toNat_eq (h .pc trivial), BitVec.eq_of_toNat_eq (h .x trivial),
    BitVec.eq_of_toNat_eq (h .y trivial), BitVec.eq_of_toNat_eq (h .a trivial), BitVec.eq_of_toNat_eq (h .b trivial),
    BitVec.eq_of_toNat_eq (h .np trivial), BitVec.eq_of_toNat_eq (h .sp trivial),
    BitVec.eq_of_toNat_eq (h .flags trivial), ht, BitVec.eq_of_toNat_eq (h .ptEnable trivial),
    BitVec.eq_of_toNat_eq (h .ptData trivial), BitVec.eq_of_toNat_eq (h .ptReload trivial),
    BitVec.eq_of_toNat_eq (h .callDepth trivial), hslots, BitVec.eq_of_toNat_eq (h .halted trivial), hm⟩

theorem CoreState.blank_wf (b : Build) : (CoreState.blank b).wf b = true := by
  simp [CoreState.wf, CoreState.blank, Memory.wf, Memory.below]

/-- Reading fields of the record into a well-formed record keeps it well formed. -/
theorem readFields_wf (b : Build) (fs : List Field) (hfs : ∀ f ∈ fs, f.inRecord b) (bytes : List Byte) (cs : CoreState)
    (h : cs.wf b = true) : (readFields fs bytes cs).wf b = true := by
  induction fs generalizing bytes cs with
  | nil => exact h
  | cons f fs ih =>
    exact ih (fun g hg => hfs g (by simp [hg])) _ _ (accSet_wf b cs f _ (hfs f (by simp)) h)

/-- `de` gives a well-formed record, whatever the bytes. -/
theorem de_wf (b : Build) (bytes : List Byte) : (de b bytes).wf b = true :=
  readFields_wf b _ (fun f hf => (mem_recordFields b f).1 hf) _ _ (CoreState.blank_wf b)

/-- Committing a well-formed record over a well-formed record gives the first: every field is set (41_statestore.md R144). -/
theorem commit_eq (b : Build) (r cs : CoreState) (hr : r.wf b = true) (hcs : cs.wf b = true) : commit b r cs = r := by
  have key : ∀ (fs : List Field) (c : CoreState), (∀ f ∈ fs, f.inRecord b) → c.wf b = true →
      (fs.foldl (fun cs f => accSet cs f (accGet r f)) c).wf b = true ∧
      ∀ g : Field, accGet (fs.foldl (fun cs f => accSet cs f (accGet r f)) c) g =
        if g ∈ fs then accGet r g else accGet c g := by
    intro fs
    induction fs with
    | nil => exact fun c _ hc => ⟨hc, fun g => by simp⟩
    | cons f fs ih =>
      intro c hfs hc
      obtain ⟨h1, h2⟩ := ih (accSet c f (accGet r f)) (fun g hg => hfs g (by simp [hg]))
        (accSet_wf b c f _ (hfs f (by simp)) hc)
      refine ⟨h1, fun g => ?_⟩
      rw [List.foldl_cons, h2 g, accGet_accSet b c f g _ (hfs f (by simp)) hc,
        Nat.mod_eq_of_lt (accGet_lt r f)]
      by_cases hg : g ∈ fs
      · simp [hg]
      · by_cases hgf : g = f
        · simp [hgf]
        · simp [hg, hgf]
  obtain ⟨h1, h2⟩ := key (recordFields b) cs (fun f hf => (mem_recordFields b f).1 hf) hcs
  exact CoreState.ext_fields b _ _ h1 hr (fun f hf => by
    show accGet (commit b r cs) f = _
    rw [commit, h2 f, if_pos ((mem_recordFields b f).2 hf)])

end Sys2Proof.Machine
end

