-- ==== Sys2Proof/Laws/Step.lean ====
section
/-! SUPPORT. What one step can do, said once. -/

namespace Sys2Proof.Machine

/-- `t` is `s` with another session and another queue: all an act of the host can change. -/
def State.HostActed (s t : State) : Prop := ∃ σ p, t = { s with session := σ, pending := p }

theorem State.HostActed.same (s : State) : s.HostActed s := ⟨s.session, s.pending, rfl⟩

theorem State.HostActed.order (l : List Stimulus) {s t : State} (h : s.HostActed t) : s.HostActed (t.order l) := by
  obtain ⟨σ, p, rfl⟩ := h
  exact ⟨σ, l ++ p, rfl⟩

theorem State.HostActed.withSession (σ : Session) {s t : State} (h : s.HostActed t) : s.HostActed (t.withSession σ) := by
  obtain ⟨_, p, rfl⟩ := h
  exact ⟨σ, p, rfl⟩

theorem beginAct_hostActed (a : SessionAct) {s t : State} (h : s.HostActed t) : s.HostActed (beginAct a t) := by
  cases a
  · exact (h.withSession _).order _
  · exact h.withSession _
  · exact h.withSession _

theorem adjustVolume_hostActed (key : PollKey) {s t : State} (h : s.HostActed t) : s.HostActed (adjustVolume key t) := by
  cases key
  · exact h
  · exact h.withSession _
  · exact h.withSession _
  · exact h

theorem hostResume_hostActed {s t : State} (h : s.HostActed t) : s.HostActed (hostResume t) := (h.withSession _).order _

theorem pollPaused_hostActed (key : PollKey) (rose : Bool) {s t : State} (h : s.HostActed t) :
    s.HostActed (pollPaused key rose t) := by
  have hv := adjustVolume_hostActed key h
  unfold pollPaused
  split
  · split
    · exact hv.withSession _
    · exact hostResume_hostActed hv
  · split
    · exact hostResume_hostActed h
    · exact hv

theorem pollOverlay_hostActed (key : PollKey) (rose : Bool) {s t : State} (h : s.HostActed t) :
    s.HostActed (pollOverlay key rose t) := by
  unfold pollOverlay
  split
  · exact h
  · split
    · exact h.withSession _
    · exact (h.withSession _).order _

theorem whileRunning_hostActed (l : List Stimulus) (s : State) : s.HostActed (whileRunning l s) := by
  unfold whileRunning
  split
  · exact (State.HostActed.same s).order l
  all_goals exact .same s

theorem hostTick_hostActed (t : Tick) (s : State) : s.HostActed (hostTick t s) := by
  unfold hostTick
  split
  · exact ((State.HostActed.same s).withSession _).order _
  all_goals exact .same s

theorem hostProceed_hostActed (s : State) : s.HostActed (hostProceed s) := by
  unfold hostProceed
  split
  · split
    · exact beginAct_hostActed _ ((State.HostActed.same s).withSession _)
    · exact ((State.HostActed.same s).withSession _).order _
  all_goals exact .same s

theorem hostSaveReturned_hostActed (s : State) : s.HostActed (hostSaveReturned s) := by
  unfold hostSaveReturned
  split
  · exact ((State.HostActed.same s).withSession _).order _
  all_goals exact .same s

theorem hostLoadReturned_hostActed (s : State) : s.HostActed (hostLoadReturned s) := by
  unfold hostLoadReturned
  split
  · exact (State.HostActed.same s).order _
  · exact .same s

theorem hostPoll_hostActed (key : PollKey) (help : Bool) (s : State) : s.HostActed (hostPoll key help s) := by
  unfold hostPoll
  split
  · exact pollPaused_hostActed _ _ ((State.HostActed.same s).withSession _)
  · exact pollOverlay_hostActed _ _ ((State.HostActed.same s).withSession _)
  all_goals exact .same s

/-- An act of the host changes its session and what is pending, and nothing else (43_system.md R194: it acts on the block only by
presenting commands). -/
theorem hostAct_hostActed (a : HostAct) (s : State) : s.HostActed (hostAct a s) := by
  rcases hostAct_cases a s with ⟨-, e⟩ | ⟨-, e⟩ <;> rw [e]
  · cases a with
    | boot rom packed init d => exact ((State.HostActed.same s).withSession _).order _
    | loadReturned => exact hostLoadReturned_hostActed s
    | tick t => exact hostTick_hostActed t s
    | proceed => exact hostProceed_hostActed s
    | coreStep acts d => exact whileRunning_hostActed _ s
    | renderDue d => exact whileRunning_hostActed _ s
    | saveReturned => exact hostSaveReturned_hostActed s
    | poll key help => exact hostPoll_hostActed key help s
  · exact .same s

/-- What a step that answers a next state has done: nothing, run a command, rejected a reserved word, reset the block, let the core
change its record, or let the host act. -/
theorem step_cases (s t : State) (h : step s = .next t) :
    (s.pending = [] ∧ t = s) ∨
    (∃ cw stream d rest i, s.pending = .command cw stream d :: rest ∧ decode cw = .ok i ∧
      exec i { s with pending := rest, input := stream, draws := d } = .next t) ∨
    (∃ cw stream d rest r, s.pending = .command cw stream d :: rest ∧ decode cw = .error r ∧
      t = { s with pending := rest, input := stream, draws := d,
                   status := if s.fault = .none then .illegalCommand else s.status }) ∨
    (∃ rest, s.pending = .reset :: rest ∧ t = { s with pending := rest }.applyReset) ∨
    (∃ cw d written rest, s.pending = .resetDuring cw d written :: rest ∧
      t = (abandon cw d written { s with pending := rest }).applyReset) ∨
    (∃ cs rest, s.pending = .core cs :: rest ∧ t = { s with pending := rest, cs := cs }) ∨
    (∃ a rest, s.pending = .host a :: rest ∧ t = hostAct a { s with pending := rest }) := by
  unfold step takeStimulus at h
  cases hp : s.pending with
  | nil =>
    rw [hp] at h
    cases h
    exact .inl ⟨rfl, rfl⟩
  | cons st rest =>
    rw [hp] at h
    refine .inr ?_
    cases st with
    | command cw stream d =>
      simp only [respond] at h
      rcases runCommand_cases cw stream d { s with pending := rest } with ⟨i, h1, e⟩ | ⟨r, h1, e⟩
      · exact .inl ⟨cw, stream, d, rest, i, rfl, h1, by rw [← h, e]; rfl⟩
      · refine .inr (.inl ⟨cw, stream, d, rest, r, rfl, h1, ?_⟩)
        rw [e, rejectReserved_next] at h
        cases h
        by_cases hf : s.fault = .none <;> simp [State.present, hf, State.raise, Status.latch]
    | reset => cases h; exact .inr (.inr (.inl ⟨rest, rfl, rfl⟩))
    | resetDuring cw d written => cases h; exact .inr (.inr (.inr (.inl ⟨cw, d, written, rest, rfl, rfl⟩)))
    | core cs => cases h; exact .inr (.inr (.inr (.inr (.inl ⟨cs, rest, rfl, rfl⟩))))
    | host a => cases h; exact .inr (.inr (.inr (.inr (.inr ⟨a, rest, rfl, rfl⟩))))

end Sys2Proof.Machine
end

