-- ==== Sys2Proof/Tests/Slice0.lean ====
section
/-! SUPPORT. Tests of the model against the vectors of 95_test_vectors.md, and for every obligation with hypotheses a witness that
meets them together. No test is a statement for the provers. -/

namespace Sys2Proof.Tests

open Sys2Proof Sys2Proof.Machine

/-! ## Small states -/

/-- The build of the examples of 95_test_vectors.md: `ICON_NUM` = 8, `INT_SLOTS` = 2, `MEM_IMAGE_BYTES` = 4. -/
def small : Build := ⟨false, 2, 4, 32768, false, true⟩

/-- The same with `ICON_NUM` = 16 and the other variant of the host. -/
def wide : Build := ⟨true, 2, 4, 32768, true, false⟩

/-- Right after reset. -/
def ready : State := State.resetOf small

/-- Right after reset, 16 icons. -/
def ready16 : State := State.resetOf wide

/-- After HALT. -/
def halted : State := { ready with status := .coreHalt, fault := .coreHalt }

/-- After the first RENDER, of a blank display. -/
def clean : State := redraw ready

/-- A state with the next stimuli given. -/
def given (s : State) (next : List Stimulus) : State := { s with pending := next }

/-- A state whose host is in the mode `m`. -/
def hostIn (m : Mode) (s : State) : State := s.enter m

/-- Favourable draws of the build `small`: exactly `STATE_BYTES` = 67 bytes. -/
def full : Draws := ⟨true, true, 67, 67⟩

/-- The state an outcome goes on in. -/
def nextOf : Host.Outcome State Fault Refusal → Option State
  | .next s => some s
  | .fault _ => none
  | .refused _ => none

/-- The record of V30. -/
def v30 : CoreState where
  pc := 0x1ABC
  x := 0x123
  y := 0xFED
  a := 5
  b := 0xA
  np := 0x1F
  sp := 0xC8
  flags := 9
  timers := #v[0x00000001, 0x01020304, 0xFFFFFFFF, 0, 0x80000000, 0x0000FFFF, 0xDEADBEEF, 7, 0x12345678]
  ptEnable := 1
  ptData := 0x7F
  ptReload := 0xFF
  callDepth := 0x102
  slots := [⟨0x0F, 3, 1, 0x0C⟩, ⟨0, 0x0F, 0, 0x0A⟩]
  halted := 0
  mem := [(1, 0x5A), (2, 0xA5), (3, 0xFF)]

/-- The blob of V30, from the vector. -/
def v30Blob : List Byte :=
  [0xBC, 0x1A, 0x23, 0x01, 0xED, 0x0F, 0x05, 0x0A, 0x1F, 0xC8, 0x09, 0x01, 0x00, 0x00, 0x00, 0x04]
  ++ [0x03, 0x02, 0x01, 0xFF, 0xFF, 0xFF, 0xFF, 0x00, 0x00, 0x00, 0x00, 0x00, 0x00, 0x00, 0x80, 0xFF]
  ++ [0xFF, 0x00, 0x00, 0xEF, 0xBE, 0xAD, 0xDE, 0x07, 0x00, 0x00, 0x00, 0x78, 0x56, 0x34, 0x12, 0x01]
  ++ [0x7F, 0xFF, 0x02, 0x01, 0x00, 0x00, 0x0F, 0x03, 0x01, 0x0C, 0x00, 0x0F, 0x00, 0x0A, 0x00, 0x00]
  ++ [0x5A, 0xA5, 0xFF]

/-- Ready, with the record of V30 and a file. -/
def stored (file : Option (List Byte)) (d : Draws) : State := { ready with cs := v30, file := file, draws := d }

/-! ## Well-formedness: one ill-formed term for each check -/

theorem test_wf_pack_len : (Instr.pack (2 ^ 28)).wf = false := by decide
theorem test_wf_unpack_len : (Instr.unpack (2 ^ 28)).wf = false := by decide
theorem test_wf_setPixel_x : (Instr.setPixel 256 0 true).wf = false := by decide
theorem test_wf_setPixel_y : (Instr.setPixel 0 256 true).wf = false := by decide
theorem test_wf_setIcon_i : (Instr.setIcon 256 true).wf = false := by decide

/-! ## Decoding: words written out bit by bit from 30_encoding.md R101 to R105, values from R109 and 95_test_vectors.md -/

theorem test_decode_pack : decode 0b0001_0000000000000000000000000100#32 = .ok (.pack 4) := by rfl
theorem test_decode_pack_all_bits : decode 0b0001_1111111111111111111111111111#32 = .ok (.pack 268435455) := by rfl
theorem test_decode_unpack : decode 0b0010_0000000000000010010000000000#32 = .ok (.unpack 9216) := by rfl
theorem test_decode_save : decode 0b0011_0000000000000000000000000000#32 = .ok .save := by rfl
theorem test_decode_load : decode 0b0100_0000000000000000000000000000#32 = .ok .load := by rfl
theorem test_decode_setPixel : decode 0b0101_00000000000_1_00000011_00000010#32 = .ok (.setPixel 3 2 true) := by rfl
theorem test_decode_setPixel_clear : decode 0b0101_00000000000_0_00011111_00001111#32 = .ok (.setPixel 31 15 false) := by
  rfl
theorem test_decode_setIcon : decode 0b0110_00000000000_1_00000111_00000000#32 = .ok (.setIcon 7 true) := by rfl
theorem test_decode_setIcon_clear : decode 0b0110_00000000000_0_00010000_00000000#32 = .ok (.setIcon 16 false) := by rfl
theorem test_decode_render : decode 0b0111_0000000000000000000000000000#32 = .ok .render := by rfl
theorem test_decode_invalidate : decode 0b1000_0000000000000000000000000000#32 = .ok .invalidate := by rfl
theorem test_decode_halt : decode 0b1001_0000000000000000000000000000#32 = .ok .halt := by rfl

/-- V64 to V68. -/
theorem test_decode_reserved :
    decode 0x00000000#32 = .error .opcode ∧ decode 0xA0000000#32 = .error .opcode ∧
    decode 0xF0000000#32 = .error .opcode ∧ decode 0x70000001#32 = .error .mustBeZero ∧
    decode 0x50020302#32 = .error .mustBeZero ∧ decode 0x60010701#32 = .error .mustBeZero :=
  ⟨rfl, rfl, rfl, rfl, rfl, rfl⟩

/-! ## Instructions, on the vectors of 95_test_vectors.md -/

/-- V7: the formulas literally, on an image with top nibbles of 16 or more. -/
theorem test_pack_v7 :
    (nextOf (exec (.pack 4) { ready with input := [0x12, 0x34, 0x56, 0x78] })).map (fun t => (t.history, t.status)) =
      some ([.packOut [0x23, 0x56, 0x78]], .ok) := by decide +kernel

/-- V19. -/
theorem test_pack_v19 :
    (nextOf (exec (.pack 6) ready)).map (fun t => (t.status.code, t.fault.code, t.history)) = some (5, 1, []) := by
  decide +kernel

/-- V12 (its first group is S1). -/
theorem test_unpack_v12 :
    (nextOf (exec (.unpack 6) { ready with input := [0xAB, 0xCD, 0xEF, 0x01, 0x23, 0x45] })).map
      (fun t => (t.history, t.status)) = some ([.unpackOut [0xABC, 0xDEF, 0x012, 0x345]], .ok) := by decide +kernel

/-- V17. -/
theorem test_unpack_v17 :
    (nextOf (exec (.unpack 4) ready)).map (fun t => (t.status.code, t.fault.code, t.history)) = some (5, 1, []) := by
  decide +kernel

/-- V30 and the first row of V32. -/
theorem test_save_v30 :
    (nextOf (exec .save (stored (some [1, 2, 3]) full))).map (fun t => (t.file, t.status)) = some (some v30Blob, .ok) := by
  decide +kernel

/-- V32, `accepted` 12: the cut is inside `T[0]`. -/
theorem test_save_v32_short :
    (nextOf (exec .save (stored (some [1, 2, 3]) ⟨true, true, 12, 0⟩))).map (fun t => (t.file, t.status.code)) =
      some (some [0xBC, 0x1A, 0x23, 0x01, 0xED, 0x0F, 0x05, 0x0A, 0x1F, 0xC8, 0x09, 0x01], 4) := by decide +kernel

/-- V33: bytes 1 and 62 changed to FA and 03, and three bytes more than `STATE_BYTES`. -/
theorem test_load_v33_masked :
    (nextOf (exec .load { ready with
        file := some (((v30Blob.set 1 0xFA).set 62 0x03) ++ [1, 2, 3]), draws := ⟨true, true, 0, 70⟩ })).map
      (fun t => (t.cs, t.history, t.status)) = some ({ v30 with halted := 1 }, [.coreRefresh], .ok) := by decide +kernel

/-- V33: the first 66 bytes of V30. -/
theorem test_load_v33_short :
    (nextOf (exec .load { ready with file := some (v30Blob.take 66), draws := full })).map
      (fun t => (t.cs, t.history, t.status.code)) = some (ready.cs, [], 3) := by decide +kernel

/-- V40: column 3 of row 2, not row 3. -/
theorem test_setPixel_v40 :
    (nextOf (exec (.setPixel 3 2 true) clean)).map (fun t => (t.mtx.cell 3 2, t.mtx.cell 2 3, t.dirty)) =
      some (true, false, true) := by decide +kernel

/-- V44: x = 32 is no column 0 of the next row, and `DIRTY` stays 0. -/
theorem test_setPixel_v44 :
    (nextOf (exec (.setPixel 32 0 true) clean)).map (fun t => (t.mtx.cell 0 1, t.dirty, t.status)) =
      some (false, false, .ok) := by decide +kernel

/-- V50 and V52: 8 icons, index 8; 16 icons, index 16. -/
theorem test_setIcon_v50_v52 :
    (nextOf (exec (.setIcon 8 true) clean)).map (fun t => (t.icn, t.dirty)) = some (List.replicate 8 false, false) ∧
    (nextOf (exec (.setIcon 16 true) (redraw ready16))).map (fun t => (t.icn, t.dirty)) =
      some (List.replicate 16 false, false) := by decide +kernel

/-- V51: 16 icons, index 8, shown at `FB[520]`. -/
theorem test_setIcon_v51 :
    (nextOf (execAll [.setIcon 8 true, .render] (redraw ready16))).map
      (fun t => (t.icn[8]?, t.dirty, (t.fb.getD [])[520]?)) = some (some true, false, some true) := by decide +kernel

/-- V43: row-major, no wrap. -/
theorem test_render_v43 :
    (nextOf (execAll [.setPixel 31 0 true, .setPixel 0 1 true, .render] ready)).map
      (fun t => (((t.fb.getD []).take 34).drop 30, (t.fb.getD []).length, redraws t.history, t.dirty)) =
      some ([false, true, true, false], 520, 1, false) := by decide +kernel

/-- V53: nothing, no event. -/
theorem test_render_v53 : nextOf (exec .render clean) = some clean := by decide +kernel

/-- V55. -/
theorem test_invalidate_v55 :
    (nextOf (execAll [.invalidate, .render] clean)).map (fun t => (t.fb, t.dirty, redraws t.history)) =
      some (clean.fb, false, 2) := by decide +kernel

/-- V60, from a state with a clean display. -/
theorem test_halt_v60 :
    (nextOf (exec .halt clean)).map (fun t => (t.status.code, t.fault.code, t.fb, t.dirty)) =
      some (6, 2, clean.fb, false) := by decide +kernel

/-- V63: discarded after `MalformedRom`. -/
theorem test_halt_v63 :
    (nextOf (exec .halt (ready.raise .malformedRom))).map (fun t => (t.status.code, t.fault.code)) = some (5, 1) := by
  decide +kernel

/-- V66: a reserved word is no RENDER. -/
theorem test_reserved_v66 :
    (nextOf (step (given ready [.command 0x70000001 [] full]))).map (fun t => (t.status.code, t.fault.code, t.history)) =
      some (7, 0, []) := by decide +kernel

/-- The state after a stimulus, and the state itself where the step stops. -/
def after (s : State) (st : Stimulus) : State := (nextOf (step (given s [st]))).getD s

/-- A tick that samples the Save line only, with no core step. -/
def saveTick (p : Bool) : Tick := ⟨⟨false, false, false, p, false, false⟩, .savePauseHelp, [], false, full⟩

/-- S7: released, pressed, pressed, pressed, released over five ticks: one SAVE, in the second. -/
theorem test_host_s7 :
    let ended (s : State) : State := { s with session := { s.session with agenda := [], held := [] } }
    let s1 := after ready (.host (.tick (saveTick false)))
    let s2 := after s1 (.host (.tick (saveTick true)))
    let s3 := after (ended s2) (.host (.tick (saveTick true)))
    let s4 := after s3 (.host (.tick (saveTick true)))
    let s5 := after s4 (.host (.tick (saveTick false)))
    (s1.session.agenda, s2.session.agenda, s3.session.agenda, s4.session.agenda, s5.session.agenda) =
      ([], [.save full], [], [], []) ∧
    (after s2 (.host .proceed)).pending = [.command (encode .save) [] full, .host .saveReturned] := by decide +kernel

/-- Save and Pause rising together are both served, in either order (R207, R209). -/
theorem test_host_two_edges : ∀ o ∈ [ServiceOrder.savePauseHelp, .pauseSaveHelp],
    let tick : Tick := ⟨⟨false, false, false, true, true, false⟩, o, [[.setPixel 3 2 true]], true, full⟩
    let s := after ready (.host (.tick tick))
    s.session.agenda.length = 2 ∧ SessionAct.save full ∈ s.session.agenda ∧ SessionAct.pause ∈ s.session.agenda ∧
    s.session.held.length = 2 := by decide +kernel

/-- Help held in `Paused` opens the overlay once, in the variant that has it there (R210, R211). -/
theorem test_host_help_rearms :
    let s1 := after (hostIn .paused ready16) (.host (.poll .noKey true))
    let s2 := after s1 (.host (.poll .other true))
    let s3 := after s2 (.host (.poll .noKey true))
    (s1.session.mode, s2.session.mode, s3.session.mode) = (.helpOverlay, .paused, .paused) := by decide +kernel

/-- After a HALT in a core step the host issues nothing more of that tick (R215). -/
theorem test_host_halt_in_tick :
    (nextOf (Sys2Proof.core.run 5 (given ready
      [.host .proceed, .host (.coreStep [.halt] full), .host (.coreStep [.record v30] full), .host (.renderDue full)]))).map
      (fun t => (t.pending, t.status, t.cs == v30)) = some ([], .coreHalt, false) := by decide +kernel

/-! ## The interface -/

/-- From reset, the word placed for the fetch is the command the next step runs. -/
theorem test_withFetchWord : ∀ i ∈ [Instr.save, .load, .setPixel 3 2 true, .setIcon 7 true, .render, .invalidate, .halt, .pack 0,
    .unpack 0, .pack 6, .unpack 4],
    nextOf (step (State.withFetchWord ready 32 (encode i).toNat)) = nextOf (exec i ready) := by decide +kernel

theorem test_decodeTableWord : decodeTableWord 32 0x50010302 = some (.setPixel 3 2 true) := by rfl

/-! ## Witnesses: for each obligation with hypotheses, states and operands that meet them -/

theorem witness_DecodeOfEncodeIsIdentity :
    (Instr.pack 268435455).wf = true ∧ (Instr.unpack 0).wf = true ∧ (Instr.setPixel 255 255 true).wf = true ∧
    (Instr.setIcon 255 false).wf = true := by decide

theorem witness_EncodeOfDecodeIsIdentity : decode 0x5001FFFF = .ok (.setPixel 255 255 true) := by rfl

theorem witness_DecoderAcceptsExactlyUnreservedWords :
    (∃ i, decode 0x60010700 = .ok i) ∧ ReservedWord 0x00000000 :=
  ⟨⟨_, rfl⟩, Or.inl (by decide)⟩

theorem witness_StepRunsDecodedCommand :
    (given ready [.command 0x70000000 [] full, .reset]).pending = .command 0x70000000 [] full :: [.reset] ∧
    decode 0x70000000 = .ok .render := ⟨rfl, rfl⟩

/-- Each way to be reserved, at the ends of its bits, presented to a ready and to a halted block. -/
theorem witness_ReservedWordIsIllegalCommand :
    (∀ w ∈ [0x00000000#32, 0xA0000000, 0xF0000000, 0x70000001, 0x78000000, 0x50020302, 0x58000000, 0x60000001, 0x60000080,
        0x60020000, 0x68000000], ReservedWord w) ∧
    ready.fault = .none ∧ halted.fault ≠ .none ∧
    (given ready [.command 0xA0000000 [] full]).pending = .command 0xA0000000 [] full :: [] := by
  refine ⟨fun w hw => ?_, rfl, by decide, rfl⟩
  simp only [List.mem_cons, List.not_mem_nil, or_false] at hw
  rcases hw with rfl | rfl | rfl | rfl | rfl | rfl | rfl | rfl | rfl | rfl | rfl
  · exact .inl (by decide)
  · exact .inr (.inl (by decide))
  · exact .inr (.inl (by decide))
  · exact .inr (.inr (.inl ⟨by decide, 0, by decide⟩))
  · exact .inr (.inr (.inl ⟨by decide, 27, by decide⟩))
  · exact .inr (.inr (.inr (.inl ⟨by decide, 17, by decide⟩)))
  · exact .inr (.inr (.inr (.inl ⟨by decide, 27, by decide⟩)))
  · exact .inr (.inr (.inr (.inr ⟨by decide, 0, by decide⟩)))
  · exact .inr (.inr (.inr (.inr ⟨by decide, 7, by decide⟩)))
  · exact .inr (.inr (.inr (.inr ⟨by decide, 17, by decide⟩)))
  · exact .inr (.inr (.inr (.inr ⟨by decide, 27, by decide⟩)))

theorem witness_NothingPresentedChangesNothing : ready.pending = [] := rfl

theorem witness_StepStopsOnlyOnShortStream :
    step (given ready [.command 0x10000004 [1, 2, 3] full]) = .fault .streamStarved ∧
    step (given ready [.command 0x20000003 [1, 2] full]) = .fault .streamStarved := ⟨rfl, rfl⟩

theorem witness_StepKeepsBuild : step (given ready [.reset]) = .next ready.applyReset := rfl

theorem witness_StepAppendsAtMostOneEvent :
    step (given ready [.command 0x70000000 [] full]) = .next { redraw ready with draws := full } ∧
    Stimulus.isReset (.command 0x70000000 [] full) = false := ⟨rfl, rfl⟩

theorem witness_HaltedBlockDiscardsEveryCommand :
    halted.fault ≠ .none ∧
    (given halted [.command 0x70000000 [] full, .command 0 [] full]).pending.all Stimulus.isCommand = true := by decide

theorem witness_HaltedBlockStaysHaltedUntilReset :
    let s := given halted [.command 0x10000004 [] full, .core v30, .host (.poll .other false)]
    s.fault ≠ .none ∧ s.pending.all (fun st => !st.isReset) = true ∧
    Sys2Proof.core.run 3 s = .next { halted with cs := v30, draws := full } := ⟨by decide, rfl, rfl⟩

theorem witness_RaiseWritesStatusAndFaultOnly :
    Status.illegalCommand ≠ .malformedRom ∧ Status.illegalCommand ≠ .coreHalt := by decide

theorem witness_StepKeepsFaultMirroringStatus :
    FaultMirrorsStatus ready ∧ FaultMirrorsStatus halted ∧
    step (given ready [.command 0x90000000 [] full]) = .next { halted with draws := full } :=
  ⟨by unfold FaultMirrorsStatus; decide, by unfold FaultMirrorsStatus; decide, rfl⟩

/-- A LOAD that finds no file, a SAVE cut short, a HALT. -/
theorem witness_FailingCommandChangesNothingElse :
    ready.fault = .none ∧ (nextOf (exec .load ready)).map (fun t => t.status) = some .notFound ∧
    (nextOf (exec .save (stored none ⟨true, true, 66, 0⟩))).map (fun t => t.status) = some .writeFailure ∧
    (nextOf (exec .halt ready)).map (fun t => t.status) = some .coreHalt := by decide +kernel

theorem witness_ResetLeavesTheStatedValues : (given halted [.reset]).pending = .reset :: [] := rfl

/-- Before the removal, right after it, and past the last byte. -/
theorem witness_ResetDuringSaveLeavesAPrefix : ∀ past ∈ [none, some 0, some 70],
    (stored (some [1]) full).fault = .none ∧ full.accOk = true ∧ full.mountOk = true ∧
    (given (stored (some [1]) full) [.resetDuring (encode .save) full past]).pending =
      .resetDuring (encode .save) full past :: [] := by
  intro past _
  exact ⟨rfl, rfl, rfl, rfl⟩

theorem witness_StepKeepsStateWellFormed :
    (given ready [.core v30]).wf = true ∧ (given clean [.command 0x50010302 [] full]).wf = true ∧
    nextOf (step (given ready [.core v30])) = some { ready with cs := v30 } := by decide +kernel

theorem witness_CommandsReachTheirOwnSpacesOnly :
    exec .render ready = .next (redraw ready) ∧ marksDirty small (.setPixel 31 15 true) = true ∧
    marksDirty small (.setPixel 32 15 true) = false ∧ marksDirty small (.setIcon 7 true) = true ∧
    marksDirty small (.setIcon 8 true) = false := ⟨rfl, by decide, by decide, by decide, by decide⟩

/-- A bad length; a good one with exactly its bytes, and with none. -/
theorem witness_PackEmitsPackedImage :
    ready.fault = .none ∧ 6 % 4 ≠ 0 ∧ 4 % 4 = 0 ∧
    4 ≤ (State.present [0x12, 0x34, 0x56, 0x78] full ready).input.length ∧ 4 * 0 + 3 < 4 ∧
    0 % 4 = 0 ∧ 0 ≤ ready.input.length := by decide

theorem witness_UnpackEmitsWordRom :
    ready.fault = .none ∧ 4 % 3 ≠ 0 ∧ 3 % 3 = 0 ∧ 3 ≤ (State.present [0xAB, 0xCD, 0xEF] full ready).input.length ∧
    3 * 0 + 2 < 3 ∧ 0 % 3 = 0 ∧ 0 ≤ ready.input.length := by decide

theorem witness_CodecIsStateless :
    let s := State.present [0x12, 0x34, 0x56, 0x78] full ready
    let u := State.present [0x12, 0x34, 0x56, 0x78] full clean
    s.fault = .none ∧ u.fault = .none ∧ u.input = s.input ∧ (nextOf (exec (.pack 4) s)).isSome = true ∧
    (nextOf (exec (.unpack 3) s)).isSome = true := by decide +kernel

/-- V4: two groups. -/
theorem witness_CodecLengthRelations :
    [0x01, 0x23, 0x04, 0x56, 0x07, 0x89, 0x0A, 0xBC#8].length = 4 * 2 ∧
    [0x12, 0x34, 0x56, 0x78, 0x9A, 0xBC#8].length % 3 = 0 ∧ (List.replicate 12288 0#8).length = 12288 :=
  ⟨rfl, rfl, List.length_replicate⟩

theorem witness_ShortStreamNeverCompletes :
    ready.fault = .none ∧ (State.present [1, 2, 3] full ready).input.length < 4 ∧ 4 % 4 = 0 ∧
    (State.present [1, 2] full ready).input.length < 3 ∧ 3 % 3 = 0 := by decide

theorem witness_CanonicalViewIsThePairFormula :
    [0x12, 0x34, 0x56, 0x78#8].length % 4 = 0 ∧ 4 * 0 + 3 < [0x12, 0x34, 0x56, 0x78#8].length := by decide

/-- V1 satisfies the law; V7 does not meet its condition. -/
theorem witness_CodecRoundTripLaw :
    validImage [0x0A, 0xBC, 0x0D, 0xEF] = true ∧ validImage [0x01, 0x23, 0x04, 0x56] = true ∧
    [0x12, 0x34, 0x56, 0x78#8].length % 4 = 0 ∧
    unpack (pack [0x12, 0x34, 0x56, 0x78]) = [0x235, 0x678] ∧ canon [0x12, 0x34, 0x56, 0x78] = [0x234, 0x678] ∧
    pack [0x0A, 0xBC, 0x0D, 0xEF] = pack [0x0A, 0xBC, 0x0D, 0xEF] := by decide

/-- The inverse vectors of R125. -/
theorem witness_PackedImageHasOnePreimage :
    [0xAB, 0xCD, 0xEF#8].length % 3 = 0 ∧ nibblePairs [0xAB, 0xCD, 0xEF] = [0x0A, 0xBC, 0x0D, 0xEF] ∧
    nibblePairs [0x12, 0x34, 0x56] = [0x01, 0x23, 0x04, 0x56] ∧ unpack [0xAB, 0xCD, 0xEF] = unpack [0xAB, 0xCD, 0xEF] := by
  decide

/-- The program P1. -/
theorem witness_BringUpDeliversTheRom :
    ready.fault = .none ∧ validImage [0x01, 0x23, 0x04, 0x56, 0x07, 0x89, 0x0A, 0xBC] = true ∧
    [0x01, 0x23, 0x04, 0x56, 0x07, 0x89, 0x0A, 0xBC#8].length < 2 ^ 28 ∧
    (given ready [.host (.boot [0x01, 0x23, 0x04, 0x56, 0x07, 0x89, 0x0A, 0xBC] false v30 full)]).pending =
      .host (.boot [0x01, 0x23, 0x04, 0x56, 0x07, 0x89, 0x0A, 0xBC] false v30 full) :: [] := by decide +kernel

/-- The first and the last slot, and the first and the last byte of the image. -/
theorem witness_BlobFollowsTheFieldTable :
    Field.inRecord small .pc ∧ Field.inRecord small (.slot 0 .factor) ∧ Field.inRecord small (.slot 1 .vector) ∧
    Field.inRecord small (.mem 0) ∧ Field.inRecord small (.mem 3) :=
  ⟨trivial, by simp [Field.inRecord, small], by simp [Field.inRecord, small], by simp [Field.inRecord, small],
    by simp [Field.inRecord, small]⟩

theorem witness_DeserialiseOfSerialiseIsIdentity : v30.wf small = true := by decide

theorem witness_SerialiseOfDeserialiseClearsUnusedBits :
    (v30Blob.set 1 0xFA).length = small.stateBytes ∧ Field.inRecord small .pc ∧ Field.inRecord small (.mem 3) :=
  ⟨by decide, trivial, by simp [Field.inRecord, small]⟩

/-- Each path of SAVE: accessor, open, whole blob with no byte to spare, one byte short. -/
theorem witness_SaveWritesTheBlobOrReports :
    (stored none full).fault = .none ∧ (stored none ⟨false, true, 67, 0⟩).draws.accOk = false ∧
    (stored none ⟨true, false, 67, 0⟩).draws.mountOk = false ∧ small.stateBytes ≤ full.accepted ∧
    66 < small.stateBytes := by decide

theorem witness_SavedBlobDependsOnRecordOnly :
    let s := stored none full
    let u := { stored (some [1]) full with dirty := false, history := [.coreRefresh] }
    s.fault = .none ∧ u.fault = .none ∧ u.build = s.build ∧ u.cs = s.cs ∧ saveSucceeds s.build s.draws ∧
    saveSucceeds u.build u.draws := ⟨rfl, rfl, rfl, rfl, ⟨rfl, rfl, by decide⟩, ⟨rfl, rfl, by decide⟩⟩

/-- Each path of LOAD: open, presence, a blob one byte short, a limit one byte short, accessor, exact length. -/
theorem witness_LoadReadsTheBlobOrReports :
    ready.fault = .none ∧ ready.cs.wf small = true ∧ (stored none ⟨true, false, 0, 67⟩).draws.mountOk = false ∧
    (stored none full).file = none ∧ min (v30Blob.take 66).length 67 < small.stateBytes ∧
    min v30Blob.length 66 < small.stateBytes ∧ (stored (some v30Blob) ⟨false, true, 0, 67⟩).draws.accOk = false ∧
    small.stateBytes ≤ min v30Blob.length 67 ∧ full.accOk = true ∧ full.mountOk = true := by decide

theorem witness_LoadWritesEveryMemoryByte :
    let s := { ready with file := some v30Blob, draws := full }
    s.fault = .none ∧ s.cs.wf s.build = true ∧ s.draws.accOk = true ∧ s.draws.mountOk = true ∧ s.file = some v30Blob ∧
    s.build.stateBytes ≤ min v30Blob.length s.draws.readLimit ∧
    (nextOf (exec .load s)).map (fun t => Memory.read t.cs.mem 3) = some 0xFF := by decide +kernel

/-- The program P3 from its second command. -/
theorem witness_SaveThenLoadRestoresTheRecord :
    let s := given (stored none full)
      [.command (encode .save) [] full, .core (CoreState.blank small), .command (encode .load) [] full]
    s.fault = .none ∧ s.cs.wf s.build = true ∧ (CoreState.blank small).wf s.build = true ∧ saveSucceeds s.build full ∧
    loadSucceeds s.build full ∧
    s.pending = [.command (encode .save) [] full, .core (CoreState.blank small), .command (encode .load) [] full] ++ [] := by
  refine ⟨rfl, by decide, by decide, ?_, ?_, rfl⟩
  · exact ⟨rfl, rfl, by decide⟩
  · exact ⟨rfl, rfl, by decide⟩

theorem witness_LoadWithoutAFileIsNotFound :
    (stored none full).fault = .none ∧ (stored none full).draws.mountOk = true ∧ (stored none full).file = none := by
  decide

theorem witness_FailedLoadAndSaveLeaveTheRecord :
    (nextOf (exec .load (stored none full))).map (fun t => t.status) = some .notFound ∧
    (nextOf (exec .save (stored none full))).map (fun t => t.status) = some .ok := by decide +kernel

/-- The program P5. -/
theorem witness_FailedSaveDestroysThePreviousSave :
    let s := stored (some v30Blob) ⟨true, true, 12, 0⟩
    s.fault = .none ∧ ∃ t, exec .save s = .next t ∧ t.status = .writeFailure ∧
      ∃ u : State, u.file = t.file ∧ u.build = t.build ∧ u.fault = .none ∧ u.draws.mountOk = true :=
  ⟨rfl, _, rfl, rfl, _, rfl, rfl, rfl, rfl⟩

/-- The last cell in range, and one past it in each coordinate. -/
theorem witness_SetPixelWritesOneCell :
    ready.fault = .none ∧ (31 < 32 ∧ 15 < 16) ∧ ¬(32 < 32 ∧ 15 < 16) ∧ ¬(31 < 32 ∧ 16 < 16) := by decide

/-- The last icon, and one past it. -/
theorem witness_SetIconWritesOneEntry :
    ready.fault = .none ∧ ready.icn.length = ready.build.iconNum ∧ 7 < ready.build.iconNum ∧ ready.build.iconNum ≤ 8 ∧
    ready16.fault = .none ∧ ready16.icn.length = ready16.build.iconNum ∧ 15 < ready16.build.iconNum ∧
    ready16.build.iconNum ≤ 16 := by decide

theorem witness_RenderCopiesTheDisplayWhenDirty :
    ready.fault = .none ∧ ready.dirty = true ∧ clean.fault = .none ∧ clean.dirty = false := by decide

theorem witness_InvalidateForcesTheNextRedraw : clean.fault = .none ∧ clean.dirty = false := by decide

theorem witness_SecondRenderIsANoOp :
    (∀ i ∈ [Instr.setPixel 32 0 true, .setIcon 8 true], marksDirty ready.build i = false) ∧
    exec .render ready = .next clean ∧ execAll [.setPixel 32 0 true, .setIcon 8 true] clean = .next clean ∧
    exec .render clean = .next clean := ⟨by decide, rfl, rfl, rfl⟩

theorem witness_RedrawsAreAtMostRenders :
    (∀ i ∈ [Instr.setPixel 3 2 true], i ≠ .render) ∧
    (nextOf (execAll [.setPixel 3 2 true] clean)).map (fun t => redraws t.history) = some 1 ∧
    (nextOf (execAll [.setPixel 3 2 true, .render] clean)).map (fun t => redraws t.history) = some 2 := by
  decide +kernel

theorem witness_DirtyFlagInvariantHolds :
    DisplayInvariant ready ∧ step (given ready [.command 0x70000000 [] full]) = .next { clean with draws := full } :=
  ⟨fun h => absurd h (by decide), rfl⟩

theorem witness_FramebufferIsTheLastRedraw :
    ready.fb = lastRedraw ready.history ∧ clean.fb = lastRedraw clean.history ∧
    step (given clean [.reset]) = .next ready := ⟨rfl, by decide +kernel, rfl⟩

theorem witness_RepeatedCommandChangesNothingMore :
    exec .render ready = .next clean ∧ exec .invalidate ready = .next ready ∧
    exec (.setPixel 32 0 true) ready = .next ready ∧ exec (.setIcon 16 true) ready16 = .next ready16 ∧
    exec .save (stored none ⟨false, true, 0, 0⟩) = .next ((stored none ⟨false, true, 0, 0⟩).raise .corruptState) :=
  ⟨rfl, rfl, rfl, rfl, rfl⟩

theorem witness_HaltLatchesCoreHalt :
    ready.fault = .none ∧ halted.fault ≠ .none ∧ (ready.raise .malformedRom).fault ≠ .none := by decide

theorem witness_HaltFreezesTheDisplay :
    let s := given clean [.command 0x50010000 [] full, .command 0x70000000 [] full]
    s.fault = .none ∧ exec .halt s = .next (s.raise .coreHalt) ∧
    (s.raise .coreHalt).pending.all (fun st => !st.isReset) = true ∧
    Sys2Proof.core.run 2 (s.raise .coreHalt) = .next { clean.raise .coreHalt with draws := full } := ⟨rfl, rfl, rfl, rfl⟩

theorem witness_OnlyTerminalStatusesSetFault :
    ready.fault = .none ∧ exec (.pack 6) ready = .next (ready.raise .malformedRom) ∧
    (ready.raise .malformedRom).fault ≠ .none ∧ exec (.unpack 4) ready = .next (ready.raise .malformedRom) ∧
    exec .halt ready = .next (ready.raise .coreHalt) ∧ (ready.raise .coreHalt).fault ≠ .none :=
  ⟨rfl, rfl, by decide, rfl, rfl, by decide⟩

/-- A rising line and a held one; each kind of action at the head of the agenda, and none. -/
theorem witness_TickServesEachRisingEdgeOnce :
    let held := after ready (.host (.tick (saveTick true)))
    (given ready [.host (.tick (saveTick true))]).pending = .host (.tick (saveTick true)) :: [] ∧
    ready.fault = .none ∧ ready.session.mode = .running ∧ ready.session.current.save = false ∧
    held.fault = .none ∧ held.session.mode = .running ∧ held.session.current.save = true ∧
    (given held [.host .proceed]).pending = .host .proceed :: [] ∧ held.session.agenda = .save full :: [] ∧
    ready.session.agenda = [] ∧
    (∀ a ∈ [SessionAct.pause, .help],
      (ready.withSession { ready.session with agenda := [a] }).session.agenda = a :: [] ∧
      (ready.withSession { ready.session with agenda := [a] }).session.mode = .running) := by decide +kernel

theorem witness_BlockedOrStoppedHostMakesNoProgress :
    (∀ m ∈ [Mode.paused, .helpOverlay, .saveInProgress], (hostIn m ready).session.mode ≠ .running) ∧
    halted.fault ≠ .none ∧ (∀ a ∈ [HostAct.proceed, .tick (saveTick true), .coreStep [.halt] full, .renderDue full],
      (given halted [.host a]).pending = .host a :: []) := by decide +kernel

/-- Another key; Help in the variant in which it is one; Help held while another key is pressed. -/
theorem witness_ResumeForcesAFullRedraw :
    let s := hostIn .paused ready
    s.fault = .none ∧ s.session.mode = .paused ∧
    (∀ help, (given s [.host (.poll .other help)]).pending = .host (.poll .other help) :: []) ∧
    s.session.polledHelp = false ∧ s.build.helpFromPaused = false ∧ (s.pollHelpLine true).session.polledHelp = true := by
  decide +kernel

/-- A resume from `Paused`, Help there, a return from `HelpOverlay` in each variant, a return from `SaveInProgress`. -/
theorem witness_HostModeMovesOnlyAsDescribed :
    (hostIn .paused ready).wf = true ∧ (hostIn .helpOverlay ready).wf = true ∧ (hostIn .helpOverlay ready16).wf = true ∧
    (hostIn .saveInProgress ready).wf = true ∧ (given (hostIn .paused ready16) [.host (.poll .noKey true)]).wf = true ∧
    (after (hostIn .paused ready) (.host (.poll .other false))).session.mode = .running ∧
    (after (hostIn .paused ready16) (.host (.poll .noKey true))).session.mode = .helpOverlay ∧
    (after (hostIn .helpOverlay ready) (.host (.poll .other false))).session.mode = .running ∧
    (after (hostIn .helpOverlay ready16) (.host (.poll .other false))).session.mode = .paused ∧
    (after (hostIn .saveInProgress ready) (.host .saveReturned)).session.mode = .running := by decide +kernel

/-- At both bounds of 0..255, and next to them. -/
theorem witness_VolumeMovesByTenWithinBounds : ∀ v ∈ [0#8, 9, 10, 245, 246, 255],
    let s := (hostIn .paused ready).setVolume v
    s.fault = .none ∧ s.session.mode = .paused ∧
    (∀ help, (given s [.host (.poll .volumeUp help)]).pending = .host (.poll .volumeUp help) :: [] ∧
      (given s [.host (.poll .volumeDown help)]).pending = .host (.poll .volumeDown help) :: []) := by decide +kernel

end Sys2Proof.Tests
end

/-! # Proofs: the step, its build, and the well-formedness every step keeps -/

namespace Sys2Proof.Machine

/-! ## What a command leaves alone -/

theorem Instr.after_keeps_environment (i : Instr) (s : State) :
    (Instr.after i s).build = s.build ∧ (Instr.after i s).draws = s.draws ∧ (Instr.after i s).pending = s.pending ∧
      (Instr.after i s).session = s.session := by
  cases i with
  | save =>
    rcases saveState_cases s with ⟨-, e⟩ | ⟨-, -, e⟩ | ⟨-, -, -, e⟩ | ⟨-, -, -, e⟩ <;> simp [Instr.after, e]
  | load =>
    rcases loadState_cases s with ⟨-, e⟩ | ⟨-, -, e⟩ | ⟨_, -, -, -, e⟩ | ⟨_, -, -, -, -, e⟩ <;>
      simp [Instr.after, e, State.loaded]
  | setPixel x y val => rcases pixelWrite_cases x y val s with ⟨-, e⟩ | ⟨-, e⟩ <;> simp [Instr.after, e]
  | setIcon n val => rcases iconWrite_cases n val s with ⟨-, e⟩ | ⟨-, e⟩ <;> simp [Instr.after, e]
  | render => cases hd : s.dirty <;> simp [Instr.after, hd, redraw]
  | _ => simp [Instr.after]

/-- No command touches the build, the draws, the queue or the host's session (20_memory.md R50). -/
theorem exec_keeps_environment (i : Instr) (s t : State) (h : exec i s = .next t) :
    t.build = s.build ∧ t.draws = s.draws ∧ t.pending = s.pending ∧ t.session = s.session := by
  have transcoded : ∀ group len result, transcode group len result s = .next t →
      t.build = s.build ∧ t.draws = s.draws ∧ t.pending = s.pending ∧ t.session = s.session := by
    intro group len result ht
    rcases transcode_next group len result s t ht with ⟨-, rfl⟩ | ⟨-, -, rfl⟩ <;> simp
  rcases exec_next i s t h with ⟨-, rfl⟩ | ⟨-, ⟨len, -, ht⟩ | ⟨len, -, ht⟩ | ⟨-, -, rfl⟩⟩
  · exact ⟨rfl, rfl, rfl, rfl⟩
  · exact transcoded _ _ _ ht
  · exact transcoded _ _ _ ht
  · exact Instr.after_keeps_environment i s

@[simp] theorem abandon_build (cw : CmdWord) (d : Draws) (written : Option Nat) (s : State) :
    (abandon cw d written s).build = s.build := by
  rcases abandon_cases cw d written s with e | ⟨_, -, -, -, -, -, e⟩ <;> simp [e]

theorem State.HostActed.build_eq {s t : State} (h : s.HostActed t) : t.build = s.build := by
  obtain ⟨_, _, rfl⟩ := h
  rfl

/-! ## Well-formed sessions and acts -/

theorem Session.wf_iff (b : Build) (σ : Session) :
    σ.wf b = true ↔ (∀ a ∈ σ.held, a.wf b = true) ∧ (b.helpFromPaused = true → SessionAct.help ∉ σ.agenda) := by
  simp [Session.wf, imp_iff_not_or]

theorem Session.initial_wf (b : Build) : Session.initial.wf b = true := by
  simp [Session.wf_iff, Session.initial]

@[simp] theorem presenting_wf (b : Build) (i : Instr) (stream : List Byte) (d : Draws) :
    (presenting i stream d).wf b = true := rfl

@[simp] theorem Stimulus.host_wf (b : Build) (a : HostAct) : (Stimulus.host a).wf b = a.wf b := rfl

@[simp] theorem HostAct.proceed_wf (b : Build) : HostAct.proceed.wf b = true := rfl

@[simp] theorem HostAct.saveReturned_wf (b : Build) : HostAct.saveReturned.wf b = true := rfl

theorem CoreAct.stimulus_wf (b : Build) (d : Draws) (c : CoreAct) (h : c.wf b = true) :
    (c.stimulus d).wf b = true := by
  cases c with
  | record cs => exact h
  | _ => rfl

theorem romOrders_wf (b : Build) (rom : List Byte) (packed : Bool) (d : Draws) :
    ∀ st ∈ (romOrders rom packed d).1, st.wf b = true := by
  unfold romOrders
  split
  · simp
  · split <;> simp

theorem bootOrders_wf (b : Build) (rom : List Byte) (packed : Bool) (init : CoreState) (d : Draws)
    (hi : init.wf b = true) : ∀ st ∈ bootOrders rom packed init d, st.wf b = true := by
  have hrom := romOrders_wf b rom packed d
  unfold bootOrders
  split
  · split
    · intro st hst
      rcases List.mem_append.1 hst with h | h
      · exact hrom st h
      · simp only [List.mem_cons, List.not_mem_nil, or_false] at h
        rcases h with rfl | rfl | rfl
        · exact hi
        · rfl
        · rfl
    · exact hrom
  · simp

theorem Tick.work_wf (b : Build) (t : Tick) (h : (HostAct.tick t).wf b = true) : ∀ a ∈ t.work, a.wf b = true := by
  intro a ha
  rcases List.mem_append.1 ha with hc | hr
  · obtain ⟨acts, hacts, rfl⟩ := List.mem_map.1 hc
    exact List.all_eq_true.1 h acts hacts
  · split at hr
    · obtain rfl := List.mem_singleton.1 hr
      rfl
    · cases hr

/-- Only the Help line acts as Help, and in the variant with Help in `Paused` only it does not act (44_host_session.md R210). -/
theorem Tick.help_not_mem_actions (b : Build) (t : Tick) (σ : Session) (hb : b.helpFromPaused = true) :
    SessionAct.help ∉ t.actions b σ := by
  intro hm
  obtain ⟨l, hl, he⟩ := List.mem_map.1 hm
  have hacts : σ.acts b l = true := (List.mem_filter.1 hl).2
  cases l with
  | help => simp [Session.acts, hb] at hacts
  | save => cases he
  | pause => cases he

theorem Session.tick_wf (b : Build) (t : Tick) (σ : Session) (ht : (HostAct.tick t).wf b = true) (h : σ.wf b = true) :
    (σ.tick b t).wf b = true := by
  obtain ⟨hheld, hhelp⟩ := (Session.wf_iff b σ).1 h
  refine (Session.wf_iff b _).2 ⟨fun a ha => ?_, fun hb hm => ?_⟩
  · rcases List.mem_append.1 ha with h | h
    · exact hheld a h
    · exact t.work_wf b ht a h
  · rcases List.mem_append.1 hm with h | h
    · exact hhelp hb h
    · exact t.help_not_mem_actions b _ hb h

/-! ## Well-formedness, taken apart

`State.wf` speaks of what commands write and of what the host and the queue hold; no command changes the second part and no
act of the host the first. -/

/-- The part of `State.wf` about what the block and the core hold. -/
structure State.DataWf (s : State) : Prop where
  icons : s.icn.length = s.build.iconNum
  cells : ∀ fb, s.fb = some fb → fb.length = s.build.fbLen
  staging : s.stg.length ≤ s.build.stateBytes
  record : s.cs.wf s.build = true

/-- The part of `State.wf` about the environment: what is pending and the host's session. -/
structure State.EnvWf (s : State) : Prop where
  queue : ∀ st ∈ s.pending, st.wf s.build = true
  session : s.session.wf s.build = true

theorem State.wf_iff (s : State) : s.wf = true ↔ s.DataWf ∧ s.EnvWf := by
  have hwf : s.wf = true ↔ (s.icn.length = s.build.iconNum ∧ (∀ fb, s.fb = some fb → fb.length = s.build.fbLen) ∧
      s.stg.length ≤ s.build.stateBytes ∧ s.cs.wf s.build = true) ∧
      (∀ st ∈ s.pending, st.wf s.build = true) ∧ s.session.wf s.build = true := by
    unfold State.wf
    cases s.fb <;> simp [and_assoc]
  rw [hwf]
  exact ⟨fun ⟨⟨hi, hc, hs, hr⟩, hq, hσ⟩ => ⟨⟨hi, hc, hs, hr⟩, hq, hσ⟩,
    fun ⟨⟨hi, hc, hs, hr⟩, hq, hσ⟩ => ⟨⟨hi, hc, hs, hr⟩, hq, hσ⟩⟩

theorem State.DataWf.congr {s t : State} (h : s.DataWf) (hb : t.build = s.build) (hi : t.icn = s.icn) (hf : t.fb = s.fb)
    (hg : t.stg = s.stg) (hc : t.cs = s.cs) : t.DataWf where
  icons := by rw [hi, hb]; exact h.icons
  cells := by rw [hf, hb]; exact h.cells
  staging := by rw [hg, hb]; exact h.staging
  record := by rw [hc, hb]; exact h.record

theorem State.EnvWf.congr {s t : State} (h : s.EnvWf) (hb : t.build = s.build) (hp : t.pending = s.pending)
    (hs : t.session = s.session) : t.EnvWf where
  queue := by rw [hp, hb]; exact h.queue
  session := by rw [hs, hb]; exact h.session

/-! ## What commands, resets and the core keep -/

theorem saveState_dataWf {s : State} (h : s.DataWf) : (saveState s).DataWf := by
  rcases saveState_cases s with ⟨-, e⟩ | ⟨-, -, e⟩ | ⟨-, -, -, e⟩ | ⟨-, -, -, e⟩ <;> rw [e] <;>
    exact h.congr rfl rfl rfl rfl rfl

/-- LOAD obtains at most `STATE_BYTES` bytes (20_memory.md R59). -/
theorem length_take_bytesGot_le (b : Build) (limit : Nat) (blob : List Byte) :
    (blob.take (bytesGot b limit blob)).length ≤ b.stateBytes :=
  (List.length_take_le _ _).trans (Nat.min_le_right _ _)

/-- What LOAD commits is the record it read, well formed whatever the bytes were (41_statestore.md R144). -/
theorem commit_de_wf (b : Build) (bytes : List Byte) (cs : CoreState) (h : cs.wf b = true) :
    (commit b (de b bytes) cs).wf b = true := by
  rw [commit_eq b _ cs (de_wf b bytes) h]
  exact de_wf b bytes

theorem loaded_dataWf (blob : List Byte) {s : State} (h : s.DataWf) : (s.loaded blob).DataWf where
  icons := h.icons
  cells := h.cells
  staging := length_take_bytesGot_le _ _ _
  record := by simp [State.loaded, commit_de_wf _ _ _ h.record]

theorem loadState_dataWf {s : State} (h : s.DataWf) : (loadState s).DataWf := by
  rcases loadState_cases s with ⟨-, e⟩ | ⟨-, -, e⟩ | ⟨blob, -, -, -, e⟩ | ⟨blob, -, -, -, -, e⟩ <;> rw [e]
  · exact h.congr rfl rfl rfl rfl rfl
  · exact h.congr rfl rfl rfl rfl rfl
  · exact ⟨h.icons, h.cells, length_take_bytesGot_le _ _ _, h.record⟩
  · exact loaded_dataWf blob h

theorem iconWrite_dataWf (i : Nat) (val : Bool) {s : State} (h : s.DataWf) : (iconWrite i val s).DataWf := by
  rcases iconWrite_cases i val s with ⟨-, e⟩ | ⟨-, e⟩ <;> rw [e]
  · exact ⟨(List.length_set ..).trans h.icons, h.cells, h.staging, h.record⟩
  · exact h

theorem redraw_dataWf {s : State} (h : s.DataWf) : (redraw s).DataWf where
  icons := h.icons
  cells := by simp [redraw, State.clearDirty]
  staging := h.staging
  record := h.record

theorem State.DataWf.complete {s : State} (h : s.DataWf) : s.complete.DataWf := h.congr rfl rfl rfl rfl rfl

theorem Instr.after_dataWf (i : Instr) {s : State} (h : s.DataWf) : (Instr.after i s).DataWf := by
  cases i with
  | save => exact saveState_dataWf h
  | load => exact loadState_dataWf h
  | setPixel x y val =>
    refine State.DataWf.complete ?_
    rcases pixelWrite_cases x y val s with ⟨-, e⟩ | ⟨-, e⟩ <;> rw [e]
    · exact h.congr rfl rfl rfl rfl rfl
    · exact h
  | setIcon n val => exact (iconWrite_dataWf n val h).complete
  | render =>
    refine State.DataWf.complete ?_
    split
    · exact redraw_dataWf h
    · exact h
  | _ => exact h.congr rfl rfl rfl rfl rfl

theorem transcode_dataWf (group len : Nat) (result : List Byte → Event) {s t : State} (h : s.DataWf)
    (ht : transcode group len result s = .next t) : t.DataWf := by
  rcases transcode_next group len result s t ht with ⟨-, rfl⟩ | ⟨-, -, rfl⟩ <;> exact h.congr rfl rfl rfl rfl rfl

theorem exec_dataWf (i : Instr) {s t : State} (h : s.DataWf) (ht : exec i s = .next t) : t.DataWf := by
  rcases exec_next i s t ht with ⟨-, rfl⟩ | ⟨-, ⟨len, -, ht⟩ | ⟨len, -, ht⟩ | ⟨-, -, rfl⟩⟩
  · exact h
  · exact transcode_dataWf _ _ _ h ht
  · exact transcode_dataWf _ _ _ h ht
  · exact Instr.after_dataWf i h

theorem exec_envWf (i : Instr) {s t : State} (h : s.EnvWf) (ht : exec i s = .next t) : t.EnvWf := by
  obtain ⟨hb, -, hp, hs⟩ := exec_keeps_environment i s t ht
  exact h.congr hb hp hs

theorem exec_wf (i : Instr) {s t : State} (h : s.wf = true) (ht : exec i s = .next t) : t.wf = true := by
  obtain ⟨hd, he⟩ := s.wf_iff.1 h
  exact t.wf_iff.2 ⟨exec_dataWf i hd ht, exec_envWf i he ht⟩

/-- Reset clears the block and leaves the record, the queue and the session (70_reset_and_hazards.md R260). -/
theorem applyReset_wf {s : State} (h : s.wf = true) : s.applyReset.wf = true := by
  obtain ⟨hd, he⟩ := s.wf_iff.1 h
  refine (State.wf_iff _).2 ⟨⟨List.length_replicate .., ?_, Nat.zero_le _, hd.record⟩, he.congr rfl rfl rfl⟩
  rintro fb ⟨⟩

theorem abandon_wf (cw : CmdWord) (d : Draws) (written : Option Nat) {s : State} (h : s.wf = true) :
    (abandon cw d written s).wf = true := by
  obtain ⟨hd, he⟩ := s.wf_iff.1 h
  rcases abandon_cases cw d written s with e | ⟨_, -, -, -, -, -, e⟩ <;> rw [e]
  · exact h
  · exact (State.wf_iff _).2 ⟨hd.congr rfl rfl rfl rfl rfl, he.congr rfl rfl rfl⟩

/-! ## What the host keeps -/

theorem State.HostActed.dataWf {s t : State} (h : s.HostActed t) (hd : s.DataWf) : t.DataWf := by
  obtain ⟨_, _, rfl⟩ := h
  exact hd.congr rfl rfl rfl rfl rfl

theorem State.EnvWf.order {s : State} {l : List Stimulus} (hl : ∀ st ∈ l, st.wf s.build = true) (h : s.EnvWf) :
    (s.order l).EnvWf where
  queue st hst := (List.mem_append.1 hst).elim (hl st) (h.queue st)
  session := h.session

theorem State.EnvWf.withSession {s : State} {σ : Session} (hσ : σ.wf s.build = true) (h : s.EnvWf) :
    (s.withSession σ).EnvWf := ⟨h.queue, hσ⟩

/-- Mode, volume and samples are free: only what a tick holds must be well formed. -/
theorem State.EnvWf.enter {s : State} (m : Mode) (h : s.EnvWf) : (s.enter m).EnvWf := h.withSession h.session

theorem adjustVolume_envWf (key : PollKey) {s : State} (h : s.EnvWf) : (adjustVolume key s).EnvWf := by
  cases key with
  | volumeUp => exact h.withSession h.session
  | volumeDown => exact h.withSession h.session
  | noKey => exact h
  | other => exact h

theorem beginAct_envWf (a : SessionAct) {s : State} (h : s.EnvWf) : (beginAct a s).EnvWf := by
  cases a with
  | save d => exact (h.enter _).order (by simp)
  | pause => exact h.enter _
  | help => exact h.enter _

theorem hostResume_envWf {s : State} (h : s.EnvWf) : (hostResume s).EnvWf :=
  (h.enter _).order (by simp)

theorem pollPaused_envWf (key : PollKey) (rose : Bool) {s : State} (h : s.EnvWf) : (pollPaused key rose s).EnvWf := by
  have hv := adjustVolume_envWf key h
  unfold pollPaused
  split
  · split
    · exact hv.enter _
    · exact hostResume_envWf hv
  · split
    · exact hostResume_envWf h
    · exact hv

theorem pollOverlay_envWf (key : PollKey) (rose : Bool) {s : State} (h : s.EnvWf) :
    (pollOverlay key rose s).EnvWf := by
  unfold pollOverlay
  split
  · exact h
  · split
    · exact h.enter _
    · exact (h.enter _).order (by simp)

theorem hostPoll_envWf (key : PollKey) (help : Bool) {s : State} (h : s.EnvWf) : (hostPoll key help s).EnvWf := by
  have hl : (s.pollHelpLine help).EnvWf := h.withSession h.session
  unfold hostPoll
  split
  · exact pollPaused_envWf _ _ hl
  · exact pollOverlay_envWf _ _ hl
  all_goals exact h

theorem whileRunning_envWf {l : List Stimulus} {s : State} (hl : ∀ st ∈ l, st.wf s.build = true) (h : s.EnvWf) :
    (whileRunning l s).EnvWf := by
  unfold whileRunning
  split
  · exact h.order hl
  all_goals exact h

theorem hostTick_envWf (t : Tick) {s : State} (ht : (HostAct.tick t).wf s.build = true) (h : s.EnvWf) :
    (hostTick t s).EnvWf := by
  unfold hostTick
  split
  · exact (h.withSession (Session.tick_wf s.build t s.session ht h.session)).order (by simp)
  all_goals exact h

/-- The tick goes on: an action leaves the agenda, or the held rest of the tick becomes pending; both were well formed. -/
theorem hostProceed_envWf {s : State} (h : s.EnvWf) : (hostProceed s).EnvWf := by
  obtain ⟨hheld, hhelp⟩ := (Session.wf_iff _ _).1 h.session
  unfold hostProceed
  split
  · split
    · rename_i a rest ha
      refine beginAct_envWf a (h.withSession ((Session.wf_iff _ _).2 ⟨hheld, fun hb hm => hhelp hb ?_⟩))
      rw [ha]
      exact List.mem_cons_of_mem a hm
    · have hσ : ({ s.session with held := [] } : Session).wf s.build = true :=
        (Session.wf_iff _ _).2 ⟨fun a ha => absurd ha List.not_mem_nil, hhelp⟩
      refine (h.withSession hσ).order fun st hst => ?_
      obtain ⟨a, ha, rfl⟩ := List.mem_map.1 hst
      exact hheld a ha
  all_goals exact h

theorem hostSaveReturned_envWf {s : State} (h : s.EnvWf) : (hostSaveReturned s).EnvWf := by
  unfold hostSaveReturned
  split
  · exact (h.enter _).order (by simp)
  all_goals exact h

theorem hostLoadReturned_envWf {s : State} (h : s.EnvWf) : (hostLoadReturned s).EnvWf := by
  unfold hostLoadReturned
  split
  · exact h.order (by simp)
  · exact h

theorem hostDo_envWf (a : HostAct) {s : State} (ha : a.wf s.build = true) (h : s.EnvWf) : (hostDo a s).EnvWf := by
  cases a with
  | boot rom packed init d => exact (h.withSession (Session.initial_wf _)).order (bootOrders_wf _ rom packed init d ha)
  | loadReturned => exact hostLoadReturned_envWf h
  | tick t => exact hostTick_envWf t ha h
  | proceed => exact hostProceed_envWf h
  | coreStep acts d =>
    refine whileRunning_envWf (fun st hst => ?_) h
    obtain ⟨c, hc, rfl⟩ := List.mem_map.1 hst
    exact c.stimulus_wf _ d (List.all_eq_true.1 ha c hc)
  | renderDue d => exact whileRunning_envWf (by simp) h
  | saveReturned => exact hostSaveReturned_envWf h
  | poll key help => exact hostPoll_envWf key help h

theorem hostAct_wf (a : HostAct) {s : State} (ha : a.wf s.build = true) (h : s.wf = true) : (hostAct a s).wf = true := by
  obtain ⟨hd, he⟩ := s.wf_iff.1 h
  refine (State.wf_iff _).2 ⟨(hostAct_hostActed a s).dataWf hd, ?_⟩
  rcases hostAct_cases a s with ⟨-, e⟩ | ⟨-, e⟩ <;> rw [e]
  · exact hostDo_envWf a ha he
  · exact he

/-! ## The step -/

/-- The queue of a well-formed state, taken apart: its head brings only well-formed records, and without it the state stays well
formed. -/
theorem State.wf_pop {s : State} {st : Stimulus} {rest : List Stimulus} (hp : s.pending = st :: rest) (h : s.wf = true) :
    st.wf s.build = true ∧ { s with pending := rest }.wf = true := by
  obtain ⟨hd, he⟩ := s.wf_iff.1 h
  have hq : ∀ st' ∈ st :: rest, st'.wf s.build = true := hp ▸ he.queue
  exact ⟨hq st List.mem_cons_self,
    (State.wf_iff _).2 ⟨hd.congr rfl rfl rfl rfl rfl, fun st' h' => hq st' (List.mem_cons_of_mem st h'), he.session⟩⟩

/-- Settles O20: each stimulus leaves a well-formed state, by what commands, reset, the core and the host keep. -/
theorem stepKeepsStateWellFormed : Obligations.StepKeepsStateWellFormed := by
  intro s t hs h
  rcases step_cases s t h with ⟨-, rfl⟩ | ⟨cw, stream, d, rest, i, hp, -, he⟩ | ⟨cw, stream, d, rest, r, hp, -, rfl⟩ |
    ⟨rest, hp, rfl⟩ | ⟨cw, d, written, rest, hp, rfl⟩ | ⟨cs, rest, hp, rfl⟩ | ⟨a, rest, hp, rfl⟩
  · exact hs
  · exact exec_wf i (s := { s with pending := rest, input := stream, draws := d }) (State.wf_pop hp hs).2 he
  · exact (State.wf_pop hp hs).2
  · exact applyReset_wf (State.wf_pop hp hs).2
  · exact applyReset_wf (abandon_wf cw d written (State.wf_pop hp hs).2)
  · obtain ⟨hcs, hw⟩ := State.wf_pop hp hs
    obtain ⟨hd, he⟩ := (State.wf_iff _).1 hw
    exact (State.wf_iff _).2 ⟨⟨hd.icons, hd.cells, hd.staging, hcs⟩, he.congr rfl rfl rfl⟩
  · obtain ⟨ha, hw⟩ := State.wf_pop hp hs
    exact hostAct_wf a ha hw

/-- Settles O9: what a step can do, case by case, leaves `build`. -/
theorem stepKeepsBuild : Obligations.StepKeepsBuild := by
  intro s t h
  rcases step_cases s t h with ⟨-, rfl⟩ | ⟨cw, stream, d, rest, i, -, -, he⟩ | ⟨cw, stream, d, rest, r, -, -, rfl⟩ |
    ⟨rest, -, rfl⟩ | ⟨cw, d, written, rest, -, rfl⟩ | ⟨cs, rest, -, rfl⟩ | ⟨a, rest, -, rfl⟩
  · rfl
  · exact (exec_keeps_environment i _ t he).1
  · rfl
  · rfl
  · simp
  · rfl
  · exact (hostAct_hostActed a _).build_eq

/-- The step with a stimulus pending takes it off the queue and responds to it. -/
theorem step_of_pending (s : State) (st : Stimulus) (rest : List Stimulus) (hp : s.pending = st :: rest) :
    step s = respond st { s with pending := rest } := by
  simp [step, takeStimulus, hp]

theorem step_of_idle (s : State) (hp : s.pending = []) : step s = .next s := by
  simp [step, takeStimulus, hp]

theorem runCommand_of_decode (cw : CmdWord) (stream : List Byte) (d : Draws) (i : Instr) (s : State)
    (hi : decode cw = .ok i) : runCommand cw stream d s = exec i (s.present stream d) := by
  simp [runCommand, hi]

/-- Settles O5: the step takes the command word off the queue and runs what it decodes to. -/
theorem stepRunsDecodedCommand : Obligations.StepRunsDecodedCommand := by
  intro s cw stream d rest i hp hi
  rw [step_of_pending s _ rest hp]
  exact runCommand_of_decode cw stream d i _ hi

/-- Settles O7: with an empty queue the block waits. -/
theorem nothingPresentedChangesNothing : Obligations.NothingPresentedChangesNothing := step_of_idle

end Sys2Proof.Machine

/-! # Proofs: statuses, the output history with `FB`, and reset -/

namespace Sys2Proof.Machine

/-! ## How an accepted command ends -/

/-- `t` ends a command from `s`: with `done` or with `raise` (00_scope.md R15), after effects that leave `FAULT` alone. -/
def State.Ends (s t : State) : Prop :=
  ∃ u : State, u.fault = s.fault ∧ (t = u.complete ∨ ∃ st, t = u.raise st)

theorem State.Ends.complete {s : State} (u : State) (hf : u.fault = s.fault) : s.Ends u.complete := ⟨u, hf, .inl rfl⟩

theorem State.Ends.raise {s : State} (u : State) (st : Status) (hf : u.fault = s.fault) : s.Ends (u.raise st) :=
  ⟨u, hf, .inr ⟨st, rfl⟩⟩

theorem saveState_ends (s : State) : s.Ends (saveState s) := by
  rcases saveState_cases s with ⟨-, e⟩ | ⟨-, -, e⟩ | ⟨-, -, -, e⟩ | ⟨-, -, -, e⟩ <;> rw [e]
  · exact .raise s _ rfl
  · exact .raise s _ rfl
  · exact .complete _ rfl
  · exact .raise _ _ rfl

theorem loadState_ends (s : State) : s.Ends (loadState s) := by
  rcases loadState_cases s with ⟨-, e⟩ | ⟨-, -, e⟩ | ⟨_, -, -, -, e⟩ | ⟨_, -, -, -, -, e⟩ <;> rw [e]
  · exact .raise s _ rfl
  · exact .raise s _ rfl
  · exact .raise _ _ rfl
  · exact .complete _ rfl

theorem transcode_ends (group len : Nat) (result : List Byte → Event) {s t : State}
    (h : transcode group len result s = .next t) : s.Ends t := by
  rcases transcode_next group len result s t h with ⟨-, rfl⟩ | ⟨-, -, rfl⟩
  · exact .raise s _ rfl
  · exact .complete _ rfl

theorem Instr.after_ends (i : Instr) (s : State) (hp : ∀ len, i ≠ .pack len) (hu : ∀ len, i ≠ .unpack len) :
    s.Ends (Instr.after i s) := by
  cases i with
  | pack len => exact absurd rfl (hp len)
  | unpack len => exact absurd rfl (hu len)
  | save => exact saveState_ends s
  | load => exact loadState_ends s
  | setPixel x y val =>
    refine .complete _ ?_
    rcases pixelWrite_cases x y val s with ⟨-, e⟩ | ⟨-, e⟩ <;> rw [e]
  | setIcon n val =>
    refine .complete _ ?_
    rcases iconWrite_cases n val s with ⟨-, e⟩ | ⟨-, e⟩ <;> rw [e]
  | render =>
    refine .complete _ ?_
    split <;> rfl
  | invalidate => exact .complete _ rfl
  | halt => exact .raise s _ rfl

/-- A command that answers a next state was discarded (43_system.md R192), or was accepted and completed or raised a status. -/
theorem exec_ends (i : Instr) {s t : State} (h : exec i s = .next t) :
    (s.fault ≠ .none ∧ t = s) ∨ (s.fault = .none ∧ s.Ends t) := by
  rcases exec_next i s t h with ⟨hf, rfl⟩ | ⟨hf, ⟨len, -, ht⟩ | ⟨len, -, ht⟩ | ⟨hp, hu, rfl⟩⟩
  · exact .inl ⟨hf, rfl⟩
  · exact .inr ⟨hf, transcode_ends _ _ _ ht⟩
  · exact .inr ⟨hf, transcode_ends _ _ _ ht⟩
  · exact .inr ⟨hf, Instr.after_ends i s hp hu⟩

/-! ## `FAULT` agrees with `STATUS` -/

theorem FaultMirrorsStatus.congr {s t : State} (h : FaultMirrorsStatus s) (hs : t.status = s.status)
    (hf : t.fault = s.fault) : FaultMirrorsStatus t := by
  unfold FaultMirrorsStatus
  rw [hs, hf]
  exact h

/-- `OK` over no fault. -/
theorem faultMirrorsStatus_of_ok {s : State} (hs : s.status = .ok) (hf : s.fault = .none) : FaultMirrorsStatus s := by
  simp [FaultMirrorsStatus, hs, hf]

/-- Raised over no fault, a terminal status latches its own value and the others leave `NONE` (60_exceptions.md R233). -/
theorem faultMirrorsStatus_raise (st : Status) {s : State} (hf : s.fault = .none) : FaultMirrorsStatus (s.raise st) := by
  unfold FaultMirrorsStatus
  rw [State.raise_status, State.raise_fault, hf]
  rcases st.latch_cases .none with ⟨rfl, e⟩ | ⟨rfl, e⟩ | ⟨hm, hc, e⟩
  · simp [e]
  · simp [e]
  · simp [e, hm, hc]

theorem State.Ends.faultMirrorsStatus {s t : State} (h : s.Ends t) (hf : s.fault = .none) : FaultMirrorsStatus t := by
  obtain ⟨u, hu, rfl | ⟨st, rfl⟩⟩ := h
  · exact faultMirrorsStatus_of_ok rfl (hu.trans hf)
  · exact faultMirrorsStatus_raise st (hu.trans hf)

theorem exec_faultMirrorsStatus (i : Instr) {s t : State} (h : FaultMirrorsStatus s) (ht : exec i s = .next t) :
    FaultMirrorsStatus t := by
  rcases exec_ends i ht with ⟨-, rfl⟩ | ⟨hf, he⟩
  · exact h
  · exact he.faultMirrorsStatus hf

/-- A reserved word raises a status that is not terminal, or is discarded (30_encoding.md R107). -/
theorem rejected_faultMirrorsStatus {s t : State} (h : FaultMirrorsStatus s) (hf : t.fault = s.fault)
    (hs : t.status = if s.fault = .none then .illegalCommand else s.status) : FaultMirrorsStatus t := by
  by_cases hn : s.fault = .none
  · simp [FaultMirrorsStatus, hf, hs, hn]
  · exact h.congr (by rw [hs, if_neg hn]) hf

theorem State.HostActed.faultMirrorsStatus {s t : State} (h : s.HostActed t) (hm : FaultMirrorsStatus s) :
    FaultMirrorsStatus t := by
  obtain ⟨_, _, rfl⟩ := h
  exact hm

/-- Settles O15: a command is discarded, or starts from no fault and ends in agreement; reset clears both registers; the core and
the host reach neither. -/
theorem stepKeepsFaultMirroringStatus : Obligations.StepKeepsFaultMirroringStatus := by
  intro s t hm h
  rcases step_cases s t h with ⟨-, rfl⟩ | ⟨cw, stream, d, rest, i, -, -, he⟩ | ⟨cw, stream, d, rest, r, -, -, rfl⟩ |
    ⟨rest, -, rfl⟩ | ⟨cw, d, written, rest, -, rfl⟩ | ⟨cs, rest, -, rfl⟩ | ⟨a, rest, -, rfl⟩
  · exact hm
  · exact exec_faultMirrorsStatus i (s := { s with pending := rest, input := stream, draws := d }) hm he
  · exact rejected_faultMirrorsStatus hm rfl rfl
  · exact faultMirrorsStatus_of_ok rfl rfl
  · exact faultMirrorsStatus_of_ok rfl rfl
  · exact hm
  · exact (hostAct_hostActed a { s with pending := rest }).faultMirrorsStatus hm

/-! ## The output history and `FB` -/

@[simp] theorem lastRedraw_nil : lastRedraw [] = none := rfl

@[simp] theorem lastRedraw_singleton (e : Event) : lastRedraw [e] = redrawCells e := by
  cases e <;> rfl

/-- The last redraw of a history carried on is the last one of what was added, or else the last one before. -/
theorem lastRedraw_append (h new : List Event) : lastRedraw (h ++ new) = (lastRedraw new).or (lastRedraw h) := by
  simp [lastRedraw, List.getLast?_append]

/-- `t` carries on the output of `s`: its history is that of `s` with at most one event added (10_state.md R28), and `FB` changes
just when that event is a redraw, to the cells it shows (R25, 42_compositor.md R173). -/
def State.CarriesOn (s t : State) : Prop :=
  ∃ new : List Event, t.history = s.history ++ new ∧ new.length ≤ 1 ∧ t.fb = (lastRedraw new).or s.fb

theorem State.CarriesOn.silent {s t : State} (hh : t.history = s.history) (hf : t.fb = s.fb) : s.CarriesOn t :=
  ⟨[], by simp [hh], Nat.zero_le 1, by simp [hf]⟩

theorem State.CarriesOn.event {s t : State} (e : Event) (hh : t.history = s.history ++ [e])
    (hf : t.fb = (redrawCells e).or s.fb) : s.CarriesOn t :=
  ⟨[e], hh, Nat.le_refl 1, by rw [lastRedraw_singleton, hf]⟩

theorem State.CarriesOn.fb_eq {s t : State} (h : s.CarriesOn t) (hs : s.fb = lastRedraw s.history) :
    t.fb = lastRedraw t.history := by
  obtain ⟨new, hh, -, hf⟩ := h
  rw [hh, lastRedraw_append, hf, hs]

theorem saveState_carriesOn (s : State) : s.CarriesOn (saveState s) := by
  rcases saveState_cases s with ⟨-, e⟩ | ⟨-, -, e⟩ | ⟨-, -, -, e⟩ | ⟨-, -, -, e⟩ <;> rw [e] <;> exact .silent rfl rfl

theorem loadState_carriesOn (s : State) : s.CarriesOn (loadState s) := by
  rcases loadState_cases s with ⟨-, e⟩ | ⟨-, -, e⟩ | ⟨_, -, -, -, e⟩ | ⟨_, -, -, -, -, e⟩ <;> rw [e]
  · exact .silent rfl rfl
  · exact .silent rfl rfl
  · exact .silent rfl rfl
  · exact .event .coreRefresh rfl rfl

theorem redraw_carriesOn (s : State) : s.CarriesOn (redraw s) :=
  .event (.redraw (framebuffer s.build s.mtx s.icn)) rfl rfl

/-- PACK and UNPACK show nothing: their one event carries bytes or words. -/
theorem transcode_carriesOn (group len : Nat) (result : List Byte → Event) (hr : ∀ bytes, redrawCells (result bytes) = none)
    {s t : State} (h : transcode group len result s = .next t) : s.CarriesOn t := by
  rcases transcode_next group len result s t h with ⟨-, rfl⟩ | ⟨-, -, rfl⟩
  · exact .silent rfl rfl
  · exact .event (result (s.input.take len)) rfl (by simp [hr])

theorem Instr.after_carriesOn (i : Instr) (s : State) : s.CarriesOn (Instr.after i s) := by
  cases i with
  | save => exact saveState_carriesOn s
  | load => exact loadState_carriesOn s
  | setPixel x y val =>
    rcases pixelWrite_cases x y val s with ⟨-, e⟩ | ⟨-, e⟩ <;> rw [Instr.after, e] <;> exact .silent rfl rfl
  | setIcon n val =>
    rcases iconWrite_cases n val s with ⟨-, e⟩ | ⟨-, e⟩ <;> rw [Instr.after, e] <;> exact .silent rfl rfl
  | render =>
    cases hd : s.dirty with
    | true => rw [Instr.after, hd, if_pos rfl]; exact redraw_carriesOn s
    | false => rw [Instr.after, hd, if_neg Bool.false_ne_true]; exact .silent rfl rfl
  | _ => exact .silent rfl rfl

theorem exec_carriesOn (i : Instr) {s t : State} (h : exec i s = .next t) : s.CarriesOn t := by
  rcases exec_next i s t h with ⟨-, rfl⟩ | ⟨-, ⟨len, -, ht⟩ | ⟨len, -, ht⟩ | ⟨-, -, rfl⟩⟩
  · exact .silent rfl rfl
  · exact transcode_carriesOn _ _ _ (fun _ => rfl) ht
  · exact transcode_carriesOn _ _ _ (fun _ => rfl) ht
  · exact Instr.after_carriesOn i s

theorem State.HostActed.carriesOn {s t : State} (h : s.HostActed t) : s.CarriesOn t := by
  obtain ⟨_, _, rfl⟩ := h
  exact .silent rfl rfl

/-- A step applies reset, and history and `FB` are empty after it (10_state.md R41), or it carries on the output. -/
theorem step_carriesOn {s t : State} (h : step s = .next t) :
    (∃ st rest, s.pending = st :: rest ∧ st.isReset = true ∧ t.history = [] ∧ t.fb = none) ∨ s.CarriesOn t := by
  rcases step_cases s t h with ⟨-, rfl⟩ | ⟨cw, stream, d, rest, i, -, -, he⟩ | ⟨cw, stream, d, rest, r, -, -, rfl⟩ |
    ⟨rest, hp, rfl⟩ | ⟨cw, d, written, rest, hp, rfl⟩ | ⟨cs, rest, -, rfl⟩ | ⟨a, rest, -, rfl⟩
  · exact .inr (.silent rfl rfl)
  · exact .inr (exec_carriesOn i (s := { s with pending := rest, input := stream, draws := d }) he)
  · exact .inr (.silent rfl rfl)
  · exact .inl ⟨_, rest, hp, rfl, rfl, rfl⟩
  · exact .inl ⟨_, rest, hp, rfl, rfl, rfl⟩
  · exact .inr (.silent rfl rfl)
  · exact .inr (hostAct_hostActed a { s with pending := rest }).carriesOn

/-- Settles O51: reset empties both, and a step that carries on the output changes `FB` with the redraw it adds. -/
theorem framebufferIsTheLastRedraw : Obligations.FramebufferIsTheLastRedraw := by
  refine ⟨fun b => rfl, fun s t hs h => ?_⟩
  rcases step_carriesOn h with ⟨_, _, -, -, hh, hf⟩ | hc
  · rw [hh, hf, lastRedraw_nil]
  · exact hc.fb_eq hs

/-- Settles O10: without a reset the step carries on the output. -/
theorem stepAppendsAtMostOneEvent : Obligations.StepAppendsAtMostOneEvent := by
  intro s t h hr
  rcases step_carriesOn h with ⟨st, rest, hp, hst, -, -⟩ | ⟨new, hh, hl, -⟩
  · exact absurd ((hr st rest hp).symm.trans hst) Bool.false_ne_true
  · exact ⟨new, hh, hl⟩

/-! ## The codes, and the values after reset -/

/-- Settles O14: the code tables of 60_exceptions.md R231 and 10_state.md R27, entry by entry. -/
theorem statusAndFaultCodes : Obligations.StatusAndFaultCodes :=
  ⟨rfl, rfl, rfl, rfl, rfl, rfl, rfl, rfl, rfl, rfl, rfl⟩

@[simp] theorem Matrix.cell_clear (x y : Nat) : Matrix.clear.cell x y = false := by
  unfold Matrix.cell Matrix.clear
  split <;> simp

theorem State.applyReset_icon (s : State) (i : Nat) (hi : i < s.build.iconNum) : s.applyReset.icn[i]? = some false := by
  simp [hi]

/-- Settles O17: the step is `applyReset`, whose fields are the values of R41. -/
theorem resetLeavesTheStatedValues : Obligations.ResetLeavesTheStatedValues := by
  intro s rest hp
  exact ⟨State.applyReset { s with pending := rest }, step_of_pending s _ rest hp, fun x y _ _ => Matrix.cell_clear x y,
    List.length_replicate .., State.applyReset_icon { s with pending := rest }, rfl, rfl, rfl, rfl, rfl, rfl⟩

@[simp] theorem abandon_cs (cw : CmdWord) (d : Draws) (written : Option Nat) (s : State) :
    (abandon cw d written s).cs = s.cs := by
  rcases abandon_cases cw d written s with e | ⟨_, -, -, -, -, -, e⟩ <;> rw [e]

@[simp] theorem decode_encode_save : decode (encode .save) = .ok .save := by decide

/-- A command abandoned before any removal step has not touched the state (70_reset_and_hazards.md R260). -/
@[simp] theorem abandon_none (cw : CmdWord) (d : Draws) (s : State) : abandon cw d none s = s := by
  rcases abandon_cases cw d none s with e | ⟨_, -, hw, -⟩
  · exact e
  · cases hw

/-- A SAVE abandoned past its removal step leaves in `FILE` the first bytes of the new blob (R260). -/
theorem abandon_save_file (d : Draws) (n : Nat) (s : State) (hf : s.fault = .none) (ha : d.accOk = true)
    (hm : d.mountOk = true) :
    (abandon (encode .save) d (some n) s).file = some ((ser s.build s.cs).take (min n d.accepted)) := by
  simp [abandon, hf, ha, hm]

/-- Settles O18: the abandoned SAVE has touched `FILE` only, and `applyReset` keeps what it left there. -/
theorem resetDuringSaveLeavesAPrefix : Obligations.ResetDuringSaveLeavesAPrefix := by
  intro s d past rest hf ha hm hp
  refine ⟨(abandon (encode .save) d past { s with pending := rest }).applyReset, step_of_pending s _ rest hp,
    abandon_cs .., fun x y _ _ => Matrix.cell_clear x y, by simp, fun i hi => State.applyReset_icon _ i (by simpa using hi),
    rfl, rfl, rfl, rfl, ?_, ?_⟩
  · rintro rfl
    rw [abandon_none, State.applyReset_file]
  · intro hpast
    obtain ⟨n, rfl⟩ := Option.ne_none_iff_exists'.1 hpast
    exact ⟨_, abandon_save_file d n { s with pending := rest } hf ha hm, List.take_prefix ..⟩

theorem State.resetOf_wf (b : Build) : (State.resetOf b).wf = true := by
  refine (State.wf_iff _).2 ⟨⟨List.length_replicate .., ?_, Nat.zero_le _, CoreState.blank_wf b⟩, ?_, Session.initial_wf b⟩
  · rintro fb ⟨⟩
  · exact fun st hst => absurd hst List.not_mem_nil

/-- Settles O19: the lengths are those of the build, `DIRTY` is 1 and `STATUS` is `OK` over no fault. -/
theorem resetStateSatisfiesInvariants : Obligations.ResetStateSatisfiesInvariants := by
  intro b
  refine ⟨State.resetOf_wf b, ?_, faultMirrorsStatus_of_ok rfl rfl, rfl⟩
  intro hd
  cases hd

end Sys2Proof.Machine

/-! # Proofs: how a step can stop, the spaces a command reaches, and repeated commands -/

namespace Sys2Proof.Machine

/-! ## How a command, and a step, can stop -/

theorem transcode_starved (group len : Nat) (result : List Byte → Event) (s : State) (hl : len % group = 0)
    (hs : s.input.length < len) : transcode group len result s = .fault .streamStarved := by
  rcases transcode_cases group len result s with ⟨hbad, -⟩ | ⟨-, -, e⟩ | ⟨-, hlen, -⟩
  · exact absurd hl hbad
  · exact e
  · exact absurd hs (Nat.not_lt.2 hlen)

/-- Settles O27: accepted, PACK and UNPACK transcode, and a short stream starves a good length. -/
theorem shortStreamNeverCompletes : Obligations.ShortStreamNeverCompletes := by
  intro s len hf hs
  constructor <;> intro hl
  · rw [exec_pack_ready len s hf]
    exact transcode_starved 4 len _ s hl hs
  · rw [exec_unpack_ready len s hf]
    exact transcode_starved 3 len _ s hl hs

/-- The one situation in which a command stops: an accepted PACK or UNPACK of a good length over a shorter stream
(20_memory.md R51). -/
def State.Starves (s : State) (i : Instr) : Prop :=
  s.fault = .none ∧ ∃ len, s.input.length < len ∧ ((i = .pack len ∧ len % 4 = 0) ∨ (i = .unpack len ∧ len % 3 = 0))

theorem transcode_outcome (group len : Nat) (result : List Byte → Event) (s : State) :
    (∃ t, transcode group len result s = .next t) ∨
    (transcode group len result s = .fault .streamStarved ∧ len % group = 0 ∧ s.input.length < len) := by
  rcases transcode_cases group len result s with ⟨-, e⟩ | ⟨hl, hs, e⟩ | ⟨-, -, e⟩
  · exact .inl ⟨_, e⟩
  · exact .inr ⟨e, hl, hs⟩
  · exact .inl ⟨_, e⟩

/-- A command answers a next state, or it is starved of its stream. -/
theorem exec_outcome (i : Instr) (s : State) :
    (∃ t, exec i s = .next t) ∨ (exec i s = .fault .streamStarved ∧ s.Starves i) := by
  by_cases hf : s.fault = .none
  · cases i with
    | pack len =>
      rw [exec_pack_ready len s hf]
      exact (transcode_outcome 4 len _ s).imp_right fun ⟨e, hl, hs⟩ => ⟨e, hf, len, hs, .inl ⟨rfl, hl⟩⟩
    | unpack len =>
      rw [exec_unpack_ready len s hf]
      exact (transcode_outcome 3 len _ s).imp_right fun ⟨e, hl, hs⟩ => ⟨e, hf, len, hs, .inr ⟨rfl, hl⟩⟩
    | _ => exact .inl ⟨_, exec_ready _ s hf (by simp) (by simp)⟩
  · exact .inl ⟨s, exec_discarded i s hf⟩

/-- A step answers a next state, or the command it has taken off the queue is starved of its stream: no other stimulus, and no
reserved word, can stop the machine. -/
theorem step_outcome (s : State) :
    (∃ t, step s = .next t) ∨
    (step s = .fault .streamStarved ∧ ∃ cw stream d rest i, s.pending = .command cw stream d :: rest ∧
      decode cw = .ok i ∧ State.Starves { s with pending := rest, input := stream, draws := d } i) := by
  cases hp : s.pending with
  | nil => exact .inl ⟨s, step_of_idle s hp⟩
  | cons st rest =>
    rw [step_of_pending s st rest hp]
    cases st with
    | command cw stream d =>
      rcases runCommand_cases cw stream d { s with pending := rest } with ⟨i, hi, e⟩ | ⟨r, -, e⟩ <;>
        rw [respond, e]
      · exact (exec_outcome i _).imp_right fun ⟨hx, hst⟩ => ⟨hx, cw, stream, d, rest, i, rfl, hi, hst⟩
      · exact .inl ⟨_, rejectReserved_next _⟩
    | _ => exact .inl ⟨_, rfl⟩

/-- Settles O8: a step that answers no next state runs a starved command, which is an accepted PACK or UNPACK. -/
theorem stepStopsOnlyOnShortStream : Obligations.StepStopsOnlyOnShortStream := by
  intro s
  rcases step_outcome s with ⟨t, e⟩ | ⟨e, cw, stream, d, rest, i, hp, hi, hf, len, hlen, hcmd⟩ <;> rw [e]
  · exact ⟨nofun, nofun⟩
  · refine ⟨nofun, ?_⟩
    rintro r ⟨⟩
    refine ⟨rfl, hf, cw, stream, d, rest, len, hp, hlen, ?_⟩
    rw [hi]
    exact hcmd.imp (fun ⟨hpack, hl⟩ => ⟨congrArg _ hpack, hl⟩) (fun ⟨hunpack, hl⟩ => ⟨congrArg _ hunpack, hl⟩)

/-! ## The spaces a command reaches (20_memory.md R50) -/

/-- PACK and UNPACK write `STATUS` and `FAULT`, read the stream and emit. -/
theorem transcode_reaches (group len : Nat) (result : List Byte → Event) {s t : State}
    (h : transcode group len result s = .next t) :
    ∃ st f input history, t = { s with status := st, fault := f, input := input, history := history } := by
  rcases transcode_next group len result s t h with ⟨-, rfl⟩ | ⟨-, -, rfl⟩ <;> exact ⟨_, _, _, _, rfl⟩

/-- SAVE writes `STATUS`, `FAULT` and `FILE`. -/
theorem saveState_reaches (s : State) :
    ∃ st f file, saveState s = { s with status := st, fault := f, file := file } := by
  rcases saveState_cases s with ⟨-, e⟩ | ⟨-, -, e⟩ | ⟨-, -, -, e⟩ | ⟨-, -, -, e⟩ <;> exact ⟨_, _, _, e⟩

/-- LOAD writes `STATUS`, `FAULT`, `STG` and `CS`, and emits. -/
theorem loadState_reaches (s : State) :
    ∃ st f stg cs history,
      loadState s = { s with status := st, fault := f, stg := stg, cs := cs, history := history } := by
  rcases loadState_cases s with ⟨-, e⟩ | ⟨-, -, e⟩ | ⟨_, -, -, -, e⟩ | ⟨_, -, -, -, -, e⟩ <;> exact ⟨_, _, _, _, _, e⟩

/-- Settles O21: a discarded command reaches nothing, and each accepted one only what its own meaning writes; an out-of-range
SETPIXEL or SETICON does not mark the display dirty. -/
theorem commandsReachTheirOwnSpacesOnly : Obligations.CommandsReachTheirOwnSpacesOnly := by
  intro i s t h
  obtain ⟨hb, hd, hp, hs⟩ := exec_keeps_environment i s t h
  refine ⟨hb, hd, hp, hs, ?_⟩
  rcases exec_next i s t h with ⟨-, rfl⟩ | ⟨-, ⟨len, rfl, ht⟩ | ⟨len, rfl, ht⟩ | ⟨-, -, rfl⟩⟩
  · simp
  · obtain ⟨st, f, input, history, rfl⟩ := transcode_reaches _ _ _ ht
    simp
  · obtain ⟨st, f, input, history, rfl⟩ := transcode_reaches _ _ _ ht
    simp
  · cases i with
    | save =>
      obtain ⟨st, f, file, e⟩ := saveState_reaches s
      simp [Instr.after, e]
    | load =>
      obtain ⟨st, f, stg, cs, history, e⟩ := loadState_reaches s
      simp [Instr.after, e]
    | setPixel x y val =>
      rcases pixelWrite_cases x y val s with ⟨hin, e⟩ | ⟨-, e⟩
      · simp [Instr.after, e, marksDirty, hin]
      · simp [Instr.after, e]
    | setIcon n val =>
      rcases iconWrite_cases n val s with ⟨hin, e⟩ | ⟨-, e⟩
      · simp [Instr.after, e, marksDirty, hin]
      · simp [Instr.after, e]
    | render => cases hdirty : s.dirty <;> simp [Instr.after, hdirty, redraw]
    | invalidate => simp [Instr.after, marksDirty]
    | _ => simp [Instr.after]

/-! ## Repeated commands (20_memory.md R67) -/

@[simp] theorem State.complete_complete (s : State) : s.complete.complete = s.complete := rfl

@[simp] theorem State.markDirty_complete_markDirty (s : State) : s.markDirty.complete.markDirty = s.markDirty.complete := rfl

@[simp] theorem State.raise_raise (st : Status) (s : State) : (s.raise st).raise st = s.raise st := by
  cases st <;> rfl

/-- Writing a cell of the matrix twice writes it once. -/
@[simp] theorem Matrix.setCell_setCell (m : Matrix) (x y : Nat) (val : Bool) :
    (m.setCell x y val).setCell x y val = m.setCell x y val := by
  by_cases h : x < matrixWidth ∧ y < matrixHeight
  · simp [Matrix.setCell, h]
  · simp [Matrix.setCell_out m x y val h]

/-- SETPIXEL reads no status and writes the one cell, so a second one writes the same cell again (42_compositor.md R171). -/
theorem pixelWrite_again (x y : Nat) (val : Bool) (s : State) :
    (pixelWrite x y val (pixelWrite x y val s).complete).complete = (pixelWrite x y val s).complete := by
  rcases pixelWrite_cases x y val s with ⟨hin, e⟩ | ⟨hin, e⟩ <;> rw [e]
  · simp [pixelWrite, hin, State.complete, State.markDirty]
  · simp [pixelWrite, hin]

theorem iconWrite_again (i : Nat) (val : Bool) (s : State) :
    (iconWrite i val (iconWrite i val s).complete).complete = (iconWrite i val s).complete := by
  rcases iconWrite_cases i val s with ⟨hin, e⟩ | ⟨hin, e⟩ <;> rw [e]
  · simp [iconWrite, hin, State.complete, State.markDirty]
  · simp [iconWrite, hin]

/-- SAVE reads the draws, the build and `CS`, none of which it writes, so a second one takes the same branch and leaves the same
`FILE` (41_statestore.md R143). -/
theorem saveState_again (s : State) : saveState (saveState s) = saveState s := by
  rcases saveState_cases s with ⟨hacc, e⟩ | ⟨hacc, hmount, e⟩ | ⟨hacc, hmount, hfit, e⟩ | ⟨hacc, hmount, hfit, e⟩ <;> rw [e]
  · simp [saveState, hacc]
  · simp [saveState, hacc, hmount]
  · simp [saveState, hacc, hmount, hfit, State.complete]
  · simp [saveState, hacc, hmount, Nat.not_le.2 hfit, State.raise, Status.latch]

/-- A RENDER leaves `DIRTY` clear, so a second one redraws nothing (42_compositor.md R173). -/
theorem Instr.after_render_again (s : State) :
    Instr.after .render (Instr.after .render s) = Instr.after .render s := by
  cases hd : s.dirty <;> simp [Instr.after, hd, redraw]

/-- A command changes nothing more when repeated if its meaning does not; a halted block discards the second one as well
(43_system.md R192). -/
theorem exec_again (i : Instr) (hp : ∀ len, i ≠ .pack len) (hu : ∀ len, i ≠ .unpack len)
    (hi : ∀ s, Instr.after i (Instr.after i s) = Instr.after i s) {s t : State} (h : exec i s = .next t) :
    exec i t = .next t := by
  by_cases ht : t.fault = .none
  · rcases exec_next i s t h with ⟨hf, rfl⟩ | ⟨-, ⟨len, e, -⟩ | ⟨len, e, -⟩ | ⟨-, -, rfl⟩⟩
    · exact absurd ht hf
    · exact absurd e (hp len)
    · exact absurd e (hu len)
    · rw [exec_ready i _ ht hp hu, hi]
  · exact exec_discarded i t ht

/-- Settles O52: the meaning of each of the five commands, applied to the state it left, leaves that state. -/
theorem repeatedCommandChangesNothingMore : Obligations.RepeatedCommandChangesNothingMore := by
  rintro i s t (⟨x, y, v, rfl⟩ | ⟨n, v, rfl⟩ | rfl | rfl | rfl) h
  · exact exec_again (.setPixel x y v) nofun nofun (pixelWrite_again x y v) h
  · exact exec_again (.setIcon n v) nofun nofun (iconWrite_again n v) h
  · exact exec_again .save nofun nofun saveState_again h
  · exact exec_again .invalidate nofun nofun (fun _ => rfl) h
  · exact exec_again .render nofun nofun Instr.after_render_again h

end Sys2Proof.Machine

/-! # Proofs: the command words, what decodes and what is reserved -/

namespace Sys2Proof.Machine

/-! ## The fields of a command word -/

/-- A command word is its opcode `cw[31:28]` over its operand bits `cw[27:0]` (30_encoding.md R100). -/
theorem toNat_eq_opcode_operands (cw : CmdWord) : cw.toNat = slice cw 28 4 * 2 ^ 28 + slice cw 0 28 := by
  have hcw := cw.isLt
  simp only [slice]
  omega

theorem slice_opcode (cw : CmdWord) : slice cw 28 4 = cw.toNat / 2 ^ 28 := by
  have hcw := cw.isLt
  simp only [slice]
  omega

theorem slice_lt (cw : CmdWord) (lo width : Nat) : slice cw lo width < 2 ^ width := Nat.mod_lt _ (by simp)

/-- A field of a word holds a 1 when one of its bits does. -/
theorem slice_ne_zero_iff (cw : CmdWord) (lo width : Nat) :
    slice cw lo width ≠ 0 ↔ ∃ k, lo ≤ k ∧ k < lo + width ∧ cw.getLsbD k = true := by
  have hbit : ∀ j, (slice cw lo width).testBit j = (decide (j < width) && cw.getLsbD (lo + j)) := by
    intro j
    rw [slice, Nat.testBit_mod_two_pow, Nat.testBit_div_two_pow, BitVec.getLsbD, Nat.add_comm]
  constructor
  · intro h
    obtain ⟨j, hj⟩ := Nat.exists_testBit_of_ne_zero h
    simp only [hbit, Bool.and_eq_true, decide_eq_true_eq] at hj
    exact ⟨lo + j, by omega, by omega, hj.2⟩
  · rintro ⟨k, hlo, hk, hb⟩ h
    have hj := hbit (k - lo)
    rw [h, Nat.add_sub_cancel' hlo, hb, decide_eq_true (by omega)] at hj
    simp at hj

/-! ## What decodes to a command -/

theorem decodeN_ok_iff (cw : CmdWord) (i j : Instr) : decodeN cw i = .ok j ↔ slice cw 0 28 = 0 ∧ i = j := by
  unfold decodeN
  split <;> simp [*]

/-- The 28 operand bits are the digits that formats P and I read from them (R103, R104). -/
theorem operands_eq_digits (cw : CmdWord) :
    slice cw 0 28 = slice cw 17 11 * 2 ^ 17 + slice cw 16 1 * 2 ^ 16 + slice cw 8 8 * 2 ^ 8 + slice cw 0 8 := by
  simp only [slice]
  omega

/-- A one-bit field read as a Boolean. -/
theorem toNat_decide_slice (cw : CmdWord) (lo : Nat) : (decide (slice cw lo 1 = 1)).toNat = slice cw lo 1 := by
  have := slice_lt cw lo 1
  by_cases h : slice cw lo 1 = 1
  · simp [h]
  · simp [h]; omega

theorem decide_slice_eq (cw : CmdWord) (lo : Nat) (val : Bool) (h : slice cw lo 1 = val.toNat) :
    decide (slice cw lo 1 = 1) = val := by
  cases val <;> simp [h]

/-- Format P spells the SETPIXELs whose operand bits are those of the word (R103). -/
theorem decodeP_ok_iff (cw : CmdWord) (j : Instr) :
    decodeP cw = .ok j ↔ ∃ x y val, j = .setPixel x y val ∧ j.wf = true ∧ slice cw 0 28 = j.operandBits := by
  have hdigits := operands_eq_digits cw
  have hx := slice_lt cw 8 8
  have hy := slice_lt cw 0 8
  have hv := slice_lt cw 16 1
  unfold decodeP
  constructor
  · split <;> rintro ⟨⟩
    next hz =>
    refine ⟨_, _, _, rfl, by simp only [Instr.wf, hx, hy, decide_true, Bool.and_self], ?_⟩
    rw [hdigits, hz, Instr.operandBits, toNat_decide_slice]
    omega
  · rintro ⟨x, y, val, rfl, hwf, h⟩
    simp only [Instr.wf, Bool.and_eq_true, decide_eq_true_eq] at hwf
    have hval := val.toNat_lt
    rw [hdigits, Instr.operandBits] at h
    rw [if_pos (by omega), decide_slice_eq cw 16 val (by omega), show slice cw 8 8 = x by omega,
      show slice cw 0 8 = y by omega]

/-- Format I spells the SETICONs whose operand bits are those of the word (R104). -/
theorem decodeI_ok_iff (cw : CmdWord) (j : Instr) :
    decodeI cw = .ok j ↔ ∃ n val, j = .setIcon n val ∧ j.wf = true ∧ slice cw 0 28 = j.operandBits := by
  have hdigits := operands_eq_digits cw
  have hn := slice_lt cw 8 8
  have hlow := slice_lt cw 0 8
  have hv := slice_lt cw 16 1
  unfold decodeI
  constructor
  · split <;> rintro ⟨⟩
    next hz =>
    refine ⟨_, _, rfl, decide_eq_true hn, ?_⟩
    rw [hdigits, hz.1, hz.2, Instr.operandBits, toNat_decide_slice]
    omega
  · rintro ⟨n, val, rfl, hwf, h⟩
    simp only [Instr.wf, decide_eq_true_eq] at hwf
    have hval := val.toNat_lt
    rw [hdigits, Instr.operandBits] at h
    rw [if_pos (by omega), decide_slice_eq cw 16 val (by omega), show slice cw 8 8 = n by omega]

/-- What a command word decodes to: the one well-formed command with its opcode and its operand bits. -/
theorem decode_ok_iff (cw : CmdWord) (i : Instr) :
    decode cw = .ok i ↔ i.wf = true ∧ slice cw 28 4 = i.opcode ∧ slice cw 0 28 = i.operandBits := by
  constructor
  · unfold decode
    split <;> intro h
    next hop => cases h; exact ⟨decide_eq_true (slice_lt ..), hop, rfl⟩
    next hop => cases h; exact ⟨decide_eq_true (slice_lt ..), hop, rfl⟩
    next hop => obtain ⟨hz, rfl⟩ := (decodeN_ok_iff ..).1 h; exact ⟨rfl, hop, hz⟩
    next hop => obtain ⟨hz, rfl⟩ := (decodeN_ok_iff ..).1 h; exact ⟨rfl, hop, hz⟩
    next hop => obtain ⟨x, y, val, rfl, hwf, hb⟩ := (decodeP_ok_iff ..).1 h; exact ⟨hwf, hop, hb⟩
    next hop => obtain ⟨n, val, rfl, hwf, hb⟩ := (decodeI_ok_iff ..).1 h; exact ⟨hwf, hop, hb⟩
    next hop => obtain ⟨hz, rfl⟩ := (decodeN_ok_iff ..).1 h; exact ⟨rfl, hop, hz⟩
    next hop => obtain ⟨hz, rfl⟩ := (decodeN_ok_iff ..).1 h; exact ⟨rfl, hop, hz⟩
    next hop => obtain ⟨hz, rfl⟩ := (decodeN_ok_iff ..).1 h; exact ⟨rfl, hop, hz⟩
    next => cases h
  · rintro ⟨hwf, hop, hb⟩
    cases i with
    | pack len => simp [decode, hop, hb, Instr.opcode, Instr.operandBits]
    | unpack len => simp [decode, hop, hb, Instr.opcode, Instr.operandBits]
    | setPixel x y val => rw [decode, hop]; exact (decodeP_ok_iff ..).2 ⟨x, y, val, rfl, hwf, hb⟩
    | setIcon n val => rw [decode, hop]; exact (decodeI_ok_iff ..).2 ⟨n, val, rfl, hwf, hb⟩
    | _ => rw [decode, hop]; exact (decodeN_ok_iff ..).2 ⟨hb, rfl⟩

/-- The word of a well-formed command holds its opcode and its operand bits (R100). -/
theorem encode_halves (i : Instr) : Laws.EncodedFields.Statement i := by
  cases i with
  | pack len => exact Laws.EncodedFields.pack len
  | unpack len => exact Laws.EncodedFields.unpack len
  | save => exact Laws.EncodedFields.save
  | load => exact Laws.EncodedFields.load
  | setPixel x y val => exact Laws.EncodedFields.setPixel x y val
  | setIcon n val => exact Laws.EncodedFields.setIcon n val
  | render => exact Laws.EncodedFields.render
  | invalidate => exact Laws.EncodedFields.invalidate
  | halt => exact Laws.EncodedFields.halt

/-- Settles O1: the word of a well-formed command has its opcode and its operand bits, which is all the decoder asks. -/
theorem decodeOfEncodeIsIdentity : Obligations.DecodeOfEncodeIsIdentity := by
  intro i hwf
  exact (decode_ok_iff _ i).2 ⟨hwf, encode_halves i hwf⟩

/-- Settles O2: the two halves that the decoder has read make up the whole word. -/
theorem encodeOfDecodeIsIdentity : Obligations.EncodeOfDecodeIsIdentity := by
  intro cw i h
  obtain ⟨hwf, hop, hb⟩ := (decode_ok_iff cw i).1 h
  refine ⟨?_, hwf⟩
  rw [encode, ← hop, ← hb, ← toNat_eq_opcode_operands, BitVec.ofNat_toNat, BitVec.setWidth_eq]

/-- Settles O4: the nine words, each decoded. -/
theorem exampleWordsDecodeAsWritten : Obligations.ExampleWordsDecodeAsWritten :=
  ⟨rfl, rfl, rfl, rfl, rfl, rfl, rfl, rfl, rfl⟩

/-! ## Reserved words (R107) -/

/-- The reserved words by their fields: a field marked "must be 0" holds a 1 exactly when one of its bits does. -/
theorem reservedWord_iff (cw : CmdWord) :
    ReservedWord cw ↔
      slice cw 28 4 = 0 ∨ 10 ≤ slice cw 28 4 ∨ (slice cw 28 4 ∈ [3, 4, 7, 8, 9] ∧ slice cw 0 28 ≠ 0) ∨
      (slice cw 28 4 = 5 ∧ slice cw 17 11 ≠ 0) ∨ (slice cw 28 4 = 6 ∧ ¬(slice cw 17 11 = 0 ∧ slice cw 0 8 = 0)) := by
  have hN : (∃ k, k < 28 ∧ cw.getLsbD k = true) ↔ slice cw 0 28 ≠ 0 := by
    simp [slice_ne_zero_iff]
  have hP : (∃ k, 17 ≤ k ∧ k ≤ 27 ∧ cw.getLsbD k = true) ↔ slice cw 17 11 ≠ 0 := by
    simp [slice_ne_zero_iff, Nat.lt_succ_iff]
  have hI : (∃ k, (k ≤ 7 ∨ (17 ≤ k ∧ k ≤ 27)) ∧ cw.getLsbD k = true) ↔
      ¬(slice cw 17 11 = 0 ∧ slice cw 0 8 = 0) := by
    rw [not_and_or, ← ne_eq, ← ne_eq, slice_ne_zero_iff, slice_ne_zero_iff, ← exists_or]
    refine exists_congr fun k => ?_
    have h7 : k ≤ 7 ↔ k < 0 + 8 := by omega
    have h27 : k ≤ 27 ↔ k < 17 + 11 := by omega
    simp only [h7, h27, Nat.zero_le, true_and]
    tauto
  rw [ReservedWord, hN, hP, hI, slice_opcode]

/-- The decoder gives a command exactly when no field marked "must be 0" holds a 1. -/
theorem exists_decode_iff (cw : CmdWord) : (∃ i, decode cw = .ok i) ↔ ¬ ReservedWord cw := by
  rw [reservedWord_iff]
  unfold decode
  split
  next hop => simp [hop]
  next hop => simp [hop]
  next hop => simp [hop, decodeN_ok_iff]
  next hop => simp [hop, decodeN_ok_iff]
  next hop => simp [hop, decodeP]; split <;> simp [*]
  next hop => simp [hop, decodeI]; split <;> simp_all
  next hop => simp [hop, decodeN_ok_iff]
  next hop => simp [hop, decodeN_ok_iff]
  next hop => simp [hop, decodeN_ok_iff]
  next =>
    have hop : slice cw 28 4 = 0 ∨ 10 ≤ slice cw 28 4 := by grind
    exact iff_of_false (by rintro ⟨_, ⟨⟩⟩) (not_not_intro (hop.imp_right .inl))

/-- Settles O3: what is not decoded is an unknown opcode or a field that must be 0 and is not. -/
theorem decoderAcceptsExactlyUnreservedWords : Obligations.DecoderAcceptsExactlyUnreservedWords := exists_decode_iff

/-- A reserved word is rejected, whatever stands behind it (R107). -/
theorem runCommand_of_reserved (cw : CmdWord) (stream : List Byte) (d : Draws) (s : State) (h : ReservedWord cw) :
    runCommand cw stream d s = rejectReserved (s.present stream d) := by
  rcases runCommand_cases cw stream d s with ⟨i, hi, -⟩ | ⟨r, -, e⟩
  · exact absurd h ((exists_decode_iff cw).1 ⟨i, hi⟩)
  · exact e

/-- Settles O6: the step rejects the word, which raises a status that latches nothing, or is discarded. -/
theorem reservedWordIsIllegalCommand : Obligations.ReservedWordIsIllegalCommand := by
  intro s cw stream d rest hp hr
  refine ⟨?_, rfl⟩
  rw [step_of_pending s _ rest hp, respond, runCommand_of_reserved cw stream d _ hr, rejectReserved_next]
  by_cases hf : s.fault = .none <;> simp [State.present, State.raise, Status.latch, hf]

end Sys2Proof.Machine

/-! # Proofs: the ROM formats and their lengths -/

namespace Sys2Proof.Machine

/-! ## The words of a group, as numbers -/

/-- The word of a nibble over a byte: shifts and masks of 12-bit words lose nothing. -/
theorem toNat_pairWord (top low : Byte) : (pairWord top low).toNat = ((top.toNat &&& 0xF) <<< 8) ||| low.toNat := by
  have htop : (top.zeroExtend 12).toNat = top.toNat := BitVec.toNat_setWidth_of_le (by decide)
  have hlow : (low.zeroExtend 12).toNat = low.toNat := BitVec.toNat_setWidth_of_le (by decide)
  have hnibble : top.toNat &&& 15 ≤ 15 := Nat.and_le_right
  rw [pairWord, BitVec.toNat_or, BitVec.toNat_shiftLeft, BitVec.toNat_and, htop, hlow]
  congr 1
  exact Nat.mod_eq_of_lt (by rw [Nat.shiftLeft_eq]; simp; omega)

theorem toNat_pairWord_digits (top low : Byte) : (pairWord top low).toNat = top.toNat % 2 ^ 4 * 2 ^ 8 + low.toNat := by
  rw [toNat_pairWord, ← Nat.shiftLeft_add_eq_or_of_lt low.isLt, Nat.shiftLeft_eq, Nat.and_two_pow_sub_one_eq_mod _ 4]

/-- The first word of a packed group: `b0` over the high nibble of `b1` (40_romcodec.md R122). -/
theorem toNat_unpackW0 (b0 b1 : Byte) : (unpackW0 b0 b1).toNat = b0.toNat * 2 ^ 4 + b1.toNat / 2 ^ 4 := by
  have h0 : (b0.zeroExtend 12).toNat = b0.toNat := BitVec.toNat_setWidth_of_le (by decide)
  have h1 : (b1.zeroExtend 12).toNat = b1.toNat := BitVec.toNat_setWidth_of_le (by decide)
  have hlt0 := b0.isLt
  have hlt1 := b1.isLt
  have hmask : (b1.toNat >>> 4) &&& 15 = b1.toNat / 2 ^ 4 := by
    rw [Nat.and_two_pow_sub_one_eq_mod _ 4, Nat.shiftRight_eq_div_pow, Nat.mod_eq_of_lt (by omega)]
  have hshift : b0.toNat <<< 4 % 2 ^ 12 = b0.toNat <<< 4 := Nat.mod_eq_of_lt (by rw [Nat.shiftLeft_eq]; omega)
  rw [unpackW0, BitVec.toNat_or, BitVec.toNat_shiftLeft, BitVec.toNat_and, BitVec.toNat_ushiftRight, h0, h1, hshift]
  rw [show BitVec.toNat 15#12 = 15 from rfl, hmask, ← Nat.shiftLeft_add_eq_or_of_lt (by omega), Nat.shiftLeft_eq]

/-- The second word of a packed group is read as a pair of nibble-pair bytes is (R122, R81). -/
theorem unpackW1_eq_pairWord (b1 b2 : Byte) : unpackW1 b1 b2 = pairWord b1 b2 := rfl

theorem toNat_unpackW1 (b1 b2 : Byte) : (unpackW1 b1 b2).toNat = b1.toNat % 2 ^ 4 * 2 ^ 8 + b2.toNat := by
  rw [unpackW1_eq_pairWord, toNat_pairWord_digits]

theorem unpack_group (b0 b1 b2 : Byte) : unpack [b0, b1, b2] = [unpackW0 b0 b1, unpackW1 b1 b2] := rfl

/-- A group unpacks to two words exactly when its bytes are the digits of the words. -/
theorem unpack_group_iff (b0 b1 b2 : Byte) (w0 w1 : RomWord) :
    unpack [b0, b1, b2] = [w0, w1] ↔
      b0.toNat = w0.toNat / 2 ^ 4 ∧ b1.toNat = w0.toNat % 2 ^ 4 * 2 ^ 4 + w1.toNat / 2 ^ 8 ∧ b2.toNat = w1.toNat % 2 ^ 8 := by
  have h0 := b0.isLt
  have h1 := b1.isLt
  have h2 := b2.isLt
  have hw0 := w0.isLt
  have hw1 := w1.isLt
  simp only [unpack_group, List.cons.injEq, and_true, ← BitVec.toNat_inj, toNat_unpackW0, toNat_unpackW1]
  omega

/-- Settles O25: the digits of the words are their bit fields, and digits determine a number and are determined by it. -/
theorem packedGroupIsABijection : Obligations.PackedGroupIsABijection := by
  constructor
  · intro b0 b1 b2
    obtain ⟨h0, h1, h2⟩ := (unpack_group_iff b0 b1 b2 _ _).1 (unpack_group b0 b1 b2)
    have hw0 := (unpackW0 b0 b1).isLt
    have hw1 := (unpackW1 b1 b2).isLt
    refine ⟨_, _, unpack_group b0 b1 b2, ?_, ?_, ?_, ?_⟩ <;>
      simp only [← BitVec.toNat_inj, BitVec.extractLsb'_toNat, Nat.shiftRight_eq_div_pow] <;> omega
  · intro w0 w1
    have hw0 := w0.isLt
    have hw1 := w1.isLt
    refine ⟨.ofNat 8 (w0.toNat / 2 ^ 4), .ofNat 8 (w0.toNat % 2 ^ 4 * 2 ^ 4 + w1.toNat / 2 ^ 8),
      .ofNat 8 (w1.toNat % 2 ^ 8), (unpack_group_iff ..).2 ?_, fun c0 c1 c2 hc => ?_⟩
    · simp only [BitVec.toNat_ofNat]
      omega
    · obtain ⟨h0, h1, h2⟩ := (unpack_group_iff c0 c1 c2 w0 w1).1 hc
      rw [← h0, ← h1, ← h2]
      simp

/-! ## Lengths, group by group -/

theorem pack_length : ∀ x : List Byte, (pack x).length = 3 * (x.length / 4)
  | [] | [_] | [_, _] | [_, _, _] => by simp [pack]
  | _ :: _ :: _ :: _ :: rest => by
    simp only [pack, List.length_cons, pack_length rest]
    omega

theorem unpack_length : ∀ p : List Byte, (unpack p).length = 2 * (p.length / 3)
  | [] | [_] | [_, _] => by simp [unpack]
  | _ :: _ :: _ :: rest => by
    simp only [unpack, List.length_cons, unpack_length rest]
    omega

theorem canon_length : ∀ x : List Byte, (canon x).length = 2 * (x.length / 4)
  | [] | [_] | [_, _] | [_, _, _] => by simp [canon]
  | _ :: _ :: _ :: _ :: rest => by
    simp only [canon, List.length_cons, canon_length rest]
    omega

/-- Settles O26: every group of four bytes gives three, and every group of three gives two words. -/
theorem codecLengthRelations : Obligations.CodecLengthRelations := by
  refine ⟨fun x n hx => ?_, fun p hp => ?_, fun x hx => ?_⟩ <;> simp only [unpack_length, pack_length] <;> omega

/-! ## The canonical view, pair by pair -/

/-- Pair `k` of a nibble-pair image is word `k` of its canonical view (30_encoding.md R81). -/
theorem wordAt_canon : ∀ (x : List Byte) (k : Nat), 4 * (k / 2) + 3 < x.length →
    wordAt (canon x) k = ((byteAt x (2 * k) &&& 0xF) <<< 8) ||| byteAt x (2 * k + 1)
  | v1 :: v2 :: _ :: _ :: _, 0, _ => toNat_pairWord v1 v2
  | _ :: _ :: v3 :: v4 :: _, 1, _ => toNat_pairWord v3 v4
  | _ :: _ :: _ :: _ :: rest, k + 2, hk => by
    have ih := wordAt_canon rest k (by simp only [List.length_cons] at hk; omega)
    simpa [wordAt, byteAt, canon, Nat.mul_add] using ih
  | [], _, hk | [_], _, hk | [_, _], _, hk | [_, _, _], _, hk => by simp at hk

/-- Settles O28: the words of a group are those of its two pairs. -/
theorem canonicalViewIsThePairFormula : Obligations.CanonicalViewIsThePairFormula := by
  intro x _
  refine ⟨canon_length x, fun k hk => ⟨?_, ?_⟩⟩
  · rw [wordAt_canon x (2 * k) (by omega), show 2 * (2 * k) = 4 * k by omega]
  · rw [wordAt_canon x (2 * k + 1) (by omega), show 2 * (2 * k + 1) = 4 * k + 2 by omega]

end Sys2Proof.Machine

/-! # Proofs: the field table, the blob, and what LOAD reads from it -/

namespace Sys2Proof.Machine

/-! ## Where a field stands in the record (30_encoding.md R91) -/

theorem Field.width_eq_tableWidth (f : Field) : f.width = tableWidth f := by
  cases f with
  | slot k g => cases g <;> rfl
  | _ => rfl

/-- The wire width is the bit width rounded up to bytes (R92). -/
theorem Field.wireBytes_eq_tableWire (f : Field) : f.wireBytes = tableWire f := by
  cases f with
  | slot k g => cases g <;> simp [Field.wireBytes, Field.width, tableWire]
  | _ => simp [Field.wireBytes, Field.width, tableWire]

/-- The fields before the interrupt slots. -/
def headFields : List Field :=
  [.pc, .x, .y, .a, .b, .np, .sp, .flags,
    .timer 0, .timer 1, .timer 2, .timer 3, .timer 4, .timer 5, .timer 6, .timer 7, .timer 8,
    .ptEnable, .ptData, .ptReload, .callDepth]

theorem recordFields_eq (b : Build) :
    recordFields b = headFields ++ ((List.range b.intSlots).flatMap slotFields ++ (.halted ::
      (List.range b.memImageBytes).map Field.mem)) := by
  simp [recordFields, headFields]

/-- The bytes the fields of a list take on the wire. -/
def wireLength (fs : List Field) : Nat := (fs.map tableWire).sum

@[simp] theorem wireLength_nil : wireLength [] = 0 := rfl

@[simp] theorem wireLength_cons (f : Field) (fs : List Field) : wireLength (f :: fs) = tableWire f + wireLength fs := rfl

@[simp] theorem wireLength_append (fs gs : List Field) : wireLength (fs ++ gs) = wireLength fs + wireLength gs := by
  simp [wireLength]

@[simp] theorem length_headFields : headFields.length = 21 := rfl

@[simp] theorem wireLength_headFields : wireLength headFields = 54 := rfl

@[simp] theorem wireLength_slotFields (k : Nat) : wireLength (slotFields k) = 4 := rfl

@[simp] theorem length_slotFields (k : Nat) : (slotFields k).length = 4 := rfl

theorem length_slots (n : Nat) : ((List.range n).flatMap slotFields).length = 4 * n := by
  simp [Nat.mul_comm]

@[simp] theorem wireLength_slots (n : Nat) : wireLength ((List.range n).flatMap slotFields) = 4 * n := by
  induction n with
  | zero => rfl
  | succ n ih => simp [List.range_succ, ih, Nat.mul_succ]

@[simp] theorem wireLength_mem (n : Nat) : wireLength ((List.range n).map Field.mem) = n := by
  induction n with
  | zero => rfl
  | succ n ih => simp [List.range_succ, ih, tableWire]

theorem wireLength_recordFields (b : Build) : wireLength (recordFields b) = b.stateBytes := by
  simp only [recordFields_eq, wireLength_append, wireLength_cons, wireLength_headFields, wireLength_slots, wireLength_mem,
    tableWire, Build.stateBytes]
  omega

/-- `f` stands in `fs` with `place` fields and `offset` bytes before it. -/
def StandsAt (fs : List Field) (f : Field) (place offset : Nat) : Prop :=
  ∃ before after, fs = before ++ f :: after ∧ before.length = place ∧ wireLength before = offset

theorem StandsAt.append {fs : List Field} {f : Field} {place offset : Nat} (h : StandsAt fs f place offset)
    (gs : List Field) : StandsAt (fs ++ gs) f place offset := by
  obtain ⟨before, after, rfl, hp, ho⟩ := h
  exact ⟨before, after ++ gs, by simp, hp, ho⟩

theorem StandsAt.prepend {fs : List Field} {f : Field} {place offset : Nat} (h : StandsAt fs f place offset)
    (gs : List Field) : StandsAt (gs ++ fs) f (gs.length + place) (wireLength gs + offset) := by
  obtain ⟨before, after, rfl, rfl, rfl⟩ := h
  exact ⟨gs ++ before, after, by simp, by simp, by simp⟩

theorem range_eq_append_cons {k n : Nat} (h : k < n) : ∃ after, List.range n = List.range k ++ k :: after := by
  refine ⟨(List.range n).drop (k + 1), ?_⟩
  conv_lhs => rw [← List.take_append_drop k (List.range n), List.drop_eq_getElem_cons (by simpa using h)]
  simp [List.take_range, Nat.min_eq_left h.le]

/-- The head of the record stands as the table says, whatever the number of slots. -/
theorem headFields_standsAt (n : Nat) : ∀ f ∈ headFields, StandsAt headFields f (tableOrder n f) (tableOffset n f) := by
  intro f hf
  refine ⟨headFields.take (tableOrder n f), headFields.drop (tableOrder n f + 1), ?_⟩
  fin_cases hf <;> exact ⟨rfl, rfl, rfl⟩

/-- A slot stands after the slots before it. -/
theorem slots_standsAt {k n : Nat} (hk : k < n) {f : Field} {place offset : Nat}
    (h : StandsAt (slotFields k) f place offset) :
    StandsAt ((List.range n).flatMap slotFields) f (4 * k + place) (4 * k + offset) := by
  obtain ⟨after, e⟩ := range_eq_append_cons hk
  rw [e, List.flatMap_append, List.flatMap_cons]
  simpa only [length_slots, wireLength_slots] using
    (h.append (after.flatMap slotFields)).prepend ((List.range k).flatMap slotFields)

/-- Within a slot, the four fields stand in the table's order, one byte each (R93). -/
theorem slotFields_standsAt (k : Nat) (g : SlotField) :
    ∃ place, StandsAt (slotFields k) (.slot k g) place place ∧
      ∀ n, tableOrder n (.slot k g) = 21 + (4 * k + place) ∧ tableOffset n (.slot k g) = 54 + (4 * k + place) := by
  cases g with
  | factor => exact ⟨0, ⟨[], _, rfl, rfl, rfl⟩, by simp only [tableOrder, tableOffset]; omega⟩
  | mask => exact ⟨1, ⟨[_], _, rfl, rfl, rfl⟩, by simp only [tableOrder, tableOffset]; omega⟩
  | triggered => exact ⟨2, ⟨[_, _], _, rfl, rfl, rfl⟩, by simp only [tableOrder, tableOffset]; omega⟩
  | vector => exact ⟨3, ⟨[_, _, _], _, rfl, rfl, rfl⟩, by simp only [tableOrder, tableOffset]; omega⟩

theorem mem_standsAt {j n : Nat} (hj : j < n) : StandsAt ((List.range n).map Field.mem) (.mem j) j j := by
  obtain ⟨after, e⟩ := range_eq_append_cons hj
  exact ⟨(List.range j).map Field.mem, after.map Field.mem, by simp [e], by simp, by simp⟩

/-- The order and offset columns of the field table say where the field stands in the record. -/
theorem recordFields_standsAt (b : Build) (f : Field) (h : f.inRecord b) :
    StandsAt (recordFields b) f (tableOrder b.intSlots f) (tableOffset b.intSlots f) := by
  have head : f ∈ headFields → StandsAt (recordFields b) f (tableOrder b.intSlots f) (tableOffset b.intSlots f) :=
    fun hf => recordFields_eq b ▸ (headFields_standsAt b.intSlots f hf).append _
  have timers : ∀ j, Field.timer j ∈ headFields := by decide
  cases f with
  | timer j => exact head (timers j)
  | slot k g =>
    obtain ⟨place, hslot, htable⟩ := slotFields_standsAt k g
    rw [(htable _).1, (htable _).2, recordFields_eq]
    exact ((slots_standsAt h hslot).append _).prepend headFields
  | halted =>
    rw [recordFields_eq]
    exact ⟨headFields ++ (List.range b.intSlots).flatMap slotFields, _, by simp; rfl, by simp [tableOrder]; omega,
      by simp [tableOffset]⟩
  | mem j =>
    obtain ⟨before, after, e, hp, ho⟩ := mem_standsAt h
    rw [recordFields_eq, e]
    exact ⟨headFields ++ ((List.range b.intSlots).flatMap slotFields ++ .halted :: before), after, by simp,
      by simp [tableOrder, hp]; omega, by simp [tableOffset, tableWire, ho]; omega⟩
  | _ => exact head (by simp [headFields])

theorem mem_slotFields (k : Nat) (f : Field) : f ∈ slotFields k ↔ ∃ g, f = .slot k g := by
  constructor
  · intro h
    simp only [slotFields, List.mem_cons, List.not_mem_nil, or_false] at h
    rcases h with rfl | rfl | rfl | rfl <;> exact ⟨_, rfl⟩
  · rintro ⟨g, rfl⟩
    cases g <;> simp [slotFields]

/-- No field stands twice in the record: the parts of the table hold fields of different kinds, and each part none twice. -/
theorem recordFields_nodup (b : Build) : (recordFields b).Nodup := by
  have hslots : ((List.range b.intSlots).flatMap slotFields).Nodup := by
    refine List.nodup_flatMap.2 ⟨fun k _ => by simp [slotFields], List.nodup_range.imp fun hne f hf hf' => ?_⟩
    obtain ⟨g, rfl⟩ := (mem_slotFields ..).1 hf
    obtain ⟨g', e⟩ := (mem_slotFields ..).1 hf'
    exact hne (Field.slot.inj e).1
  have hmem : ((List.range b.memImageBytes).map Field.mem).Nodup :=
    List.nodup_range.map fun _ _ e => Field.mem.inj e
  rw [recordFields_eq]
  refine List.nodup_append.2 ⟨by decide, List.nodup_append.2 ⟨hslots, List.nodup_cons.2 ⟨by simp, hmem⟩, ?_⟩, ?_⟩
  · rintro f hf _ hg rfl
    obtain ⟨k, -, hk⟩ := List.mem_flatMap.1 hf
    obtain ⟨g, rfl⟩ := (mem_slotFields ..).1 hk
    simp at hg
  · rintro f hf _ hg rfl
    simp only [List.mem_append, List.mem_flatMap, mem_slotFields, List.mem_cons, List.mem_map] at hg
    rcases hg with ⟨k, -, g, rfl⟩ | rfl | ⟨j, -, rfl⟩ <;> simp [headFields] at hf

/-- The record split at one of its fields: what the table says of the part before it, and that it does not stand again in the part
after it. -/
theorem recordFields_split (b : Build) (f : Field) (h : f.inRecord b) :
    ∃ before after, recordFields b = before ++ f :: after ∧ before.length = tableOrder b.intSlots f ∧
      wireLength before = tableOffset b.intSlots f ∧ f ∉ after := by
  obtain ⟨before, after, e, hp, ho⟩ := recordFields_standsAt b f h
  have hnd := recordFields_nodup b
  rw [e] at hnd
  exact ⟨before, after, e, hp, ho, (List.nodup_cons.1 (List.nodup_append.1 hnd).2.1).1⟩

/-! ## The blob (R90 to R96) -/

theorem length_flatMap_wireImage (cs : CoreState) (fs : List Field) : (fs.flatMap (wireImage cs)).length = wireLength fs := by
  simp [List.length_flatMap, wireLength, wireImage_length, Field.wireBytes_eq_tableWire]

@[simp] theorem ser_length (b : Build) (cs : CoreState) : (ser b cs).length = b.stateBytes := by
  rw [ser, length_flatMap_wireImage, wireLength_recordFields]

/-- The bytes of the blob at a field's offset are the field's wire image. -/
theorem fieldBytes_ser (b : Build) (cs : CoreState) (f : Field) (h : f.inRecord b) :
    fieldBytes b (ser b cs) f = le (tableWire f) (accGet cs f) := by
  obtain ⟨before, after, e, -, ho⟩ := recordFields_standsAt b f h
  rw [fieldBytes, ser, e, List.flatMap_append, List.flatMap_cons, List.drop_left' (by rw [length_flatMap_wireImage, ho]),
    List.take_left' (by simp [wireImage_length, Field.wireBytes_eq_tableWire]), wireImage, Field.wireBytes_eq_tableWire]

/-- Settles O32: the record split at the field gives its place and its offset, and the blob splits with it. -/
theorem blobFollowsTheFieldTable : Obligations.BlobFollowsTheFieldTable := by
  intro b cs f h
  refine ⟨?_, f.width_eq_tableWidth, f.wireBytes_eq_tableWire, f.width_eq_tableWidth ▸ accGet_lt cs f,
    fieldBytes_ser b cs f h⟩
  obtain ⟨before, after, e, hp, -⟩ := recordFields_standsAt b f h
  rw [e, ← hp, List.getElem?_append_right le_rfl, Nat.sub_self, List.getElem?_cons_zero]

/-- Settles O33: the wire widths of the parts of the table add up, and each wire image has its field's width. -/
theorem blobHasStateBytes : Obligations.BlobHasStateBytes := by
  intro b
  refine ⟨?_, rfl, ser_length b⟩
  rw [show Field.wireBytes = tableWire from funext Field.wireBytes_eq_tableWire]
  exact wireLength_recordFields b

/-! ## Reading a blob back (R96) -/

/-- Fields read one after another: the later ones from where the earlier ones end. -/
theorem readFields_append (fs gs : List Field) (bytes : List Byte) (cs : CoreState) :
    readFields (fs ++ gs) bytes cs = readFields gs (bytes.drop (wireLength fs)) (readFields fs bytes cs) := by
  induction fs generalizing bytes cs with
  | nil => rfl
  | cons f fs ih => simp [readFields, ih, Field.wireBytes_eq_tableWire]

/-- Reading other fields leaves a field as it is. -/
theorem accGet_readFields_of_not_mem (b : Build) (fs : List Field) (hfs : ∀ g ∈ fs, g.inRecord b) (bytes : List Byte)
    (cs : CoreState) (hcs : cs.wf b = true) (f : Field) (hf : f ∉ fs) : accGet (readFields fs bytes cs) f = accGet cs f := by
  induction fs generalizing bytes cs with
  | nil => rfl
  | cons g fs ih =>
    obtain ⟨hg, hgs⟩ := List.forall_mem_cons.1 hfs
    rw [List.mem_cons, not_or] at hf
    rw [readFields, ih hgs _ _ (accSet_wf b cs g _ hg hcs) hf.2, accGet_accSet b cs g f _ hg hcs, if_neg hf.1]

/-- A field of the record read holds the low bits of the bytes at its offset (R92). -/
theorem accGet_de (b : Build) (bytes : List Byte) (f : Field) (h : f.inRecord b) :
    accGet (de b bytes) f = fromLe (fieldBytes b bytes f) % 2 ^ f.width := by
  obtain ⟨before, after, e, -, ho, hafter⟩ := recordFields_split b f h
  have hin : ∀ g ∈ before ++ f :: after, g.inRecord b := fun g hg => (mem_recordFields b g).1 (e ▸ hg)
  have hbefore := readFields_wf b before (fun g hg => hin g (by simp [hg])) bytes _ (CoreState.blank_wf b)
  rw [de, e, readFields_append, readFields,
    accGet_readFields_of_not_mem b after (fun g hg => hin g (by simp [hg])) _ _ (accSet_wf b _ f _ h hbefore) f hafter,
    accGet_accSet b _ f f _ h hbefore, if_pos rfl, ho, Field.wireBytes_eq_tableWire, fieldBytes]

/-- A field's value fits its bytes on the wire. -/
theorem accGet_lt_wire (cs : CoreState) (f : Field) : accGet cs f < 256 ^ tableWire f :=
  calc accGet cs f < 2 ^ f.width := accGet_lt cs f
    _ ≤ 2 ^ (8 * f.wireBytes) := Nat.pow_le_pow_right (by decide) (width_le_wireBytes f)
    _ = 256 ^ tableWire f := by rw [Nat.pow_mul, Field.wireBytes_eq_tableWire]

/-- Settles O34: every field of the record read is the value whose wire image was written, and well-formed records are equal when
their fields are. -/
theorem deserialiseOfSerialiseIsIdentity : Obligations.DeserialiseOfSerialiseIsIdentity := by
  intro b r hr
  refine CoreState.ext_fields b _ r (de_wf b _) hr fun f hf => ?_
  rw [accGet_de b _ f hf, fieldBytes_ser b r f hf, fromLe_le, Nat.mod_eq_of_lt (accGet_lt_wire r f),
    Nat.mod_eq_of_lt (accGet_lt r f)]

/-- Settles O35: a field's bytes are the image of what was read there, which is its low bits. -/
theorem serialiseOfDeserialiseClearsUnusedBits : Obligations.SerialiseOfDeserialiseClearsUnusedBits := by
  intro b bytes _
  refine ⟨de_wf b bytes, fun f hf => ?_⟩
  rw [fieldBytes_ser b _ f hf, accGet_de b bytes f hf]

/-! ## What LOAD commits -/

/-- A LOAD that completes leaves in `CS` the record read from the first `STATE_BYTES` bytes of the file (41_statestore.md
R144). -/
theorem exec_load_cs {s t : State} {blob : List Byte} (hf : s.fault = .none) (hcs : s.cs.wf s.build = true)
    (ha : s.draws.accOk = true) (hm : s.draws.mountOk = true) (hfile : s.file = some blob)
    (hlen : s.build.stateBytes ≤ min blob.length s.draws.readLimit) (h : exec .load s = .next t) :
    t.cs = de s.build (blob.take s.build.stateBytes) := by
  have hgot : bytesGot s.build s.draws.readLimit blob = s.build.stateBytes := Nat.min_eq_right hlen
  rw [exec_ready .load s hf nofun nofun] at h
  cases h
  rcases loadState_cases s with ⟨hm', -⟩ | ⟨-, hf', -⟩ | ⟨blob', -, hf', hbad, -⟩ | ⟨blob', -, hf', -, -, e⟩
  · simp [hm] at hm'
  · simp [hfile] at hf'
  · cases hfile.symm.trans hf'
    simp [hgot, ha] at hbad
  · cases hfile.symm.trans hf'
    simp [Instr.after, e, State.loaded, hgot, commit_eq _ _ _ (de_wf ..) hcs]

/-- Byte `j` of the image read is the byte at its offset (30_encoding.md R95). -/
theorem read_mem_de (b : Build) (bytes : List Byte) (j : Nat) (hj : j < b.memImageBytes) :
    Memory.read (de b bytes).mem j = (bytes[55 + 4 * b.intSlots + j]?).getD 0 := by
  have hbyte : fieldBytes b bytes (.mem j) = (bytes[55 + 4 * b.intSlots + j]?).toList := by
    simp [fieldBytes, tableOffset, tableWire, List.take_one]
  have hread : (Memory.read (de b bytes).mem j).toNat = fromLe (fieldBytes b bytes (.mem j)) % 2 ^ 8 :=
    accGet_de b bytes (.mem j) hj
  apply BitVec.eq_of_toNat_eq
  rw [hread, hbyte]
  cases bytes[55 + 4 * b.intSlots + j]? with
  | none => rfl
  | some v => simpa [fromLe] using v.isLt

/-- Settles O39: the committed record is the one read from the file, and neither record lists a byte past the image. -/
theorem loadWritesEveryMemoryByte : Obligations.LoadWritesEveryMemoryByte := by
  intro s t blob hf hcs ha hm hfile hlen h a
  rw [exec_load_cs hf hcs ha hm hfile hlen h]
  split
  next hlt =>
    rw [read_mem_de _ _ a hlt, List.getElem?_take_of_lt (by rw [Build.stateBytes]; omega)]
  next hge =>
    obtain ⟨-, -, hnew⟩ := (CoreState.wf_iff _ _).1 (de_wf s.build (blob.take s.build.stateBytes))
    obtain ⟨-, -, hold⟩ := (CoreState.wf_iff _ _).1 hcs
    rw [Memory.read_above _ a _ hnew (Nat.le_of_not_lt hge), Memory.read_above _ a _ hold (Nat.le_of_not_lt hge)]

end Sys2Proof.Machine

/-! # Proofs: how PACK and UNPACK end, and what they emit -/

namespace Sys2Proof.Machine

/-! ## How PACK and UNPACK end -/

theorem transcode_malformed (group len : Nat) (result : List Byte → Event) (s : State) (hl : len % group ≠ 0) :
    transcode group len result s = .next (s.raise .malformedRom) := by
  rcases transcode_cases group len result s with ⟨-, e⟩ | ⟨hgood, -⟩ | ⟨hgood, -⟩
  · exact e
  · exact absurd hgood hl
  · exact absurd hgood hl

theorem transcode_supplied (group len : Nat) (result : List Byte → Event) (s : State) (hl : len % group = 0)
    (hs : len ≤ s.input.length) :
    transcode group len result s =
      .next (({ s with input := s.input.drop len }.emit (result (s.input.take len))).complete) := by
  rcases transcode_cases group len result s with ⟨hbad, -⟩ | ⟨-, hshort, -⟩ | ⟨-, -, e⟩
  · exact absurd hl hbad
  · exact absurd hs (Nat.not_le.2 hshort)
  · exact e

/-- An accepted PACK or UNPACK is a transcoding whose group size, length and event do not depend on the state. -/
theorem exists_exec_eq_transcode (i : Instr) (hi : (∃ len, i = .pack len) ∨ (∃ len, i = .unpack len)) :
    ∃ group len result, ∀ s : State, s.fault = .none → exec i s = transcode group len result s := by
  rcases hi with ⟨len, rfl⟩ | ⟨len, rfl⟩
  · exact ⟨4, len, _, exec_pack_ready len⟩
  · exact ⟨3, len, _, exec_unpack_ready len⟩

/-- Settles O24: a transcoding from one state ends as it does from another with the same stream. -/
theorem codecIsStateless : Obligations.CodecIsStateless := by
  intro i s u t hi hs hu hin h
  obtain ⟨group, len, result, he⟩ := exists_exec_eq_transcode i hi
  rw [he s hs] at h
  rw [he u hu]
  rcases transcode_next group len result s t h with ⟨hl, rfl⟩ | ⟨hl, hlen, rfl⟩
  · refine ⟨rfl, fun hne => absurd rfl hne, u.raise .malformedRom, [], transcode_malformed group len result u hl, rfl,
      rfl, hin, ?_, ?_⟩ <;> simp
  · refine ⟨rfl, fun _ => rfl, _, [result (s.input.take len)], transcode_supplied group len result u hl (hin ▸ hlen),
      rfl, ?_, ?_, rfl, ?_⟩ <;> simp [hs, hu, hin]

/-! ## The bytes of a packed group, as numbers -/

/-- A low nibble moved up by four stays within a byte. -/
theorem toNat_low_shiftLeft (v : Byte) : ((v &&& 0x0F#8) <<< 4).toNat = (v.toNat &&& 0xF) <<< 4 := by
  have hnibble : v.toNat &&& 15 ≤ 15 := Nat.and_le_right
  rw [BitVec.toNat_shiftLeft, BitVec.toNat_and]
  exact Nat.mod_eq_of_lt (by rw [Nat.shiftLeft_eq]; simp; omega)

theorem toNat_packB0 (v1 v2 : Byte) :
    (packB0 v1 v2).toNat = ((v1.toNat <<< 4) ||| ((v2.toNat >>> 4) &&& 0xF)) % 2 ^ 8 := by
  have hnibble : (v2.toNat >>> 4) &&& 15 ≤ 15 := Nat.and_le_right
  rw [packB0, BitVec.toNat_or, BitVec.toNat_shiftLeft, BitVec.toNat_and, BitVec.toNat_ushiftRight,
    Nat.or_mod_two_pow, show BitVec.toNat 15#8 = 15 from rfl, Nat.mod_eq_of_lt (a := _ &&& 15) (by omega)]

theorem toNat_packB1 (v2 v3 : Byte) : (packB1 v2 v3).toNat = ((v2.toNat &&& 0xF) <<< 4) ||| v3.toNat := by
  rw [packB1, BitVec.toNat_or, toNat_low_shiftLeft]

theorem toNat_unpackW0_or (b0 b1 : Byte) :
    (unpackW0 b0 b1).toNat = (b0.toNat <<< 4) ||| ((b1.toNat >>> 4) &&& 0xF) := by
  have hb1 := b1.isLt
  rw [toNat_unpackW0, Nat.and_two_pow_sub_one_eq_mod _ 4, Nat.shiftRight_eq_div_pow,
    Nat.mod_eq_of_lt (by omega), ← Nat.shiftLeft_add_eq_or_of_lt (by omega), Nat.shiftLeft_eq]

/-! ## PACK and UNPACK, group by group -/

/-- Group `k` of a packed image (40_romcodec.md R121). -/
theorem byteAt_pack : ∀ (x : List Byte) (k : Nat), 4 * k + 3 < x.length →
    byteAt (pack x) (3 * k) =
        ((byteAt x (4 * k) <<< 4) ||| ((byteAt x (4 * k + 1) >>> 4) &&& 0xF)) % 2 ^ 8 ∧
      byteAt (pack x) (3 * k + 1) = ((byteAt x (4 * k + 1) &&& 0xF) <<< 4) ||| byteAt x (4 * k + 2) ∧
      byteAt (pack x) (3 * k + 2) = byteAt x (4 * k + 3)
  | v1 :: v2 :: v3 :: _ :: _, 0, _ => ⟨toNat_packB0 v1 v2, toNat_packB1 v2 v3, rfl⟩
  | _ :: _ :: _ :: _ :: rest, k + 1, hk => by
    have ih := byteAt_pack rest k (by simp only [List.length_cons] at hk; omega)
    simpa [byteAt, pack, Nat.mul_add] using ih
  | [], _, hk | [_], _, hk | [_, _], _, hk | [_, _, _], _, hk => by simp at hk

/-- Group `k` of a WordRom (R122). -/
theorem wordAt_unpack : ∀ (p : List Byte) (k : Nat), 3 * k + 2 < p.length →
    wordAt (unpack p) (2 * k) = (byteAt p (3 * k) <<< 4) ||| ((byteAt p (3 * k + 1) >>> 4) &&& 0xF) ∧
      wordAt (unpack p) (2 * k + 1) = ((byteAt p (3 * k + 1) &&& 0xF) <<< 8) ||| byteAt p (3 * k + 2)
  | b0 :: b1 :: b2 :: _, 0, _ => ⟨toNat_unpackW0_or b0 b1, toNat_pairWord b1 b2⟩
  | _ :: _ :: _ :: rest, k + 1, hk => by
    have ih := wordAt_unpack rest k (by simp only [List.length_cons] at hk; omega)
    simpa [wordAt, byteAt, unpack, Nat.mul_add] using ih
  | [], _, hk | [_], _, hk | [_, _], _, hk => by simp at hk

theorem byteAt_take (l : List Byte) {n k : Nat} (hk : k < n) : byteAt (l.take n) k = byteAt l k := by
  rw [byteAt, byteAt, List.getElem?_take_of_lt hk]

/-- Settles O22: the word is that of a well-formed PACK, and what an accepted PACK emits is its stream packed group by group. -/
theorem packEmitsPackedImage : Obligations.PackEmitsPackedImage := by
  refine ⟨fun len hlen => decodeOfEncodeIsIdentity (.pack len) (decide_eq_true hlen), fun s len hf => ?_⟩
  rw [exec_pack_ready len s hf]
  refine ⟨transcode_malformed 4 len _ s, fun hl hs => ⟨_, transcode_supplied 4 len _ s hl hs, ?_, fun k hk => ?_⟩⟩
  · rw [pack_length, List.length_take_of_le hs]
    omega
  · have hgroup := byteAt_pack (s.input.take len) k (by rwa [List.length_take_of_le hs])
    rwa [byteAt_take _ (by omega), byteAt_take _ (by omega), byteAt_take _ (by omega), byteAt_take _ hk] at hgroup

/-- Settles O23: the word is that of a well-formed UNPACK, and what an accepted UNPACK emits is its stream unpacked group by
group. -/
theorem unpackEmitsWordRom : Obligations.UnpackEmitsWordRom := by
  refine ⟨fun len hlen => decodeOfEncodeIsIdentity (.unpack len) (decide_eq_true hlen), fun s len hf => ?_⟩
  rw [exec_unpack_ready len s hf]
  refine ⟨transcode_malformed 3 len _ s, fun hl hs => ⟨_, transcode_supplied 3 len _ s hl hs, ?_, fun k hk => ?_⟩⟩
  · rw [unpack_length, List.length_take_of_le hs]
    omega
  · have hgroup := wordAt_unpack (s.input.take len) k (by rwa [List.length_take_of_le hs])
    rwa [byteAt_take _ (by omega), byteAt_take _ (by omega), byteAt_take _ hk] at hgroup

end Sys2Proof.Machine

/-! # Proofs: the round trip of the codec, and the pre-image of a packed image -/

namespace Sys2Proof.Machine

/-! ## The nibbles of a packed group -/

/-- The first packed byte is the low nibble of `v1` over the high nibble of `v2` (40_romcodec.md R121). -/
theorem toNat_packB0_digits (v1 v2 : Byte) : (packB0 v1 v2).toNat = v1.toNat % 2 ^ 4 * 2 ^ 4 + v2.toNat / 2 ^ 4 := by
  have hv2 := v2.isLt
  rw [toNat_packB0, Nat.and_two_pow_sub_one_eq_mod _ 4, Nat.shiftRight_eq_div_pow, Nat.mod_eq_of_lt (b := 2 ^ 4) (by omega),
    ← Nat.shiftLeft_add_eq_or_of_lt (by omega), Nat.shiftLeft_eq]
  omega

/-- The second packed byte is the low nibble of `v2` over `v3`, when `v3` is a nibble. -/
theorem toNat_packB1_digits (v2 v3 : Byte) (h3 : v3.toNat < 16) :
    (packB1 v2 v3).toNat = v2.toNat % 2 ^ 4 * 2 ^ 4 + v3.toNat := by
  rw [toNat_packB1, ← Nat.shiftLeft_add_eq_or_of_lt h3, Nat.shiftLeft_eq, Nat.and_two_pow_sub_one_eq_mod _ 4]

/-- The low nibble of the second packed byte is that of `v3`: what it lays over `v3` ends above bit 3. -/
theorem packB1_low (v2 v3 : Byte) : (packB1 v2 v3).toNat % 2 ^ 4 = v3.toNat % 2 ^ 4 := by
  rw [toNat_packB1, Nat.or_mod_two_pow, Nat.shiftLeft_eq, Nat.mul_mod_left, Nat.zero_or]

/-- The high nibble of the second packed byte is the low nibble of `v2` with the high nibble of `v3` OR-ed in: corner case c. -/
theorem packB1_high (v2 v3 : Byte) : (packB1 v2 v3).toNat >>> 4 = (v2.toNat % 2 ^ 4) ||| (v3.toNat >>> 4) := by
  rw [toNat_packB1, Nat.shiftRight_or_distrib, Nat.shiftLeft_shiftRight, Nat.and_two_pow_sub_one_eq_mod _ 4]

/-! ## The round trip of one group (40_romcodec.md R123) -/

/-- The second word comes back: it reads the low nibble of the second packed byte only. -/
theorem unpackW1_packB1 (v2 v3 v4 : Byte) : unpackW1 (packB1 v2 v3) v4 = pairWord v3 v4 := by
  rw [← BitVec.toNat_inj, toNat_unpackW1, packB1_low, toNat_pairWord_digits]

/-- The first word comes back with the high nibble of `v3` OR-ed into its low nibble. -/
theorem toNat_unpackW0_pack (v1 v2 v3 : Byte) :
    (unpackW0 (packB0 v1 v2) (packB1 v2 v3)).toNat = (pairWord v1 v2).toNat ||| (v3.toNat >>> 4) := by
  have hlow : (packB0 v1 v2).toNat <<< 4 ||| v2.toNat % 2 ^ 4 = (pairWord v1 v2).toNat := by
    rw [← Nat.shiftLeft_add_eq_or_of_lt (Nat.mod_lt _ (by decide)), Nat.shiftLeft_eq, toNat_packB0_digits,
      toNat_pairWord_digits]
    omega
  have hhigh : (packB1 v2 v3).toNat >>> 4 < 2 ^ 4 := by
    have := (packB1 v2 v3).isLt
    rw [Nat.shiftRight_eq_div_pow]
    omega
  rw [toNat_unpackW0_or, Nat.and_two_pow_sub_one_eq_mod _ 4, Nat.mod_eq_of_lt hhigh, packB1_high, ← Nat.or_assoc, hlow]

/-- OR-ing `b` into `a` changes nothing exactly when every bit of `b` is one of `a`. -/
theorem or_eq_left_iff_testBit (a b : Nat) : a ||| b = a ↔ ∀ i, b.testBit i = true → a.testBit i = true := by
  constructor
  · intro h i hb
    rw [← h, Nat.testBit_or, hb, Bool.or_true]
  · intro h
    refine Nat.eq_of_testBit_eq fun i => ?_
    have hi := h i
    grind

/-- The high nibble of `v3` is lost in the first word exactly when `v2` has all of its bits: R123's condition. -/
theorem pairWord_or_high_eq_iff (v1 v2 v3 : Byte) :
    (pairWord v1 v2).toNat ||| (v3.toNat >>> 4) = (pairWord v1 v2).toNat ↔
      (v3.toNat >>> 4) &&& (0xFF - v2.toNat) &&& 0xF = 0 := by
  have hword : ∀ i < 4, (pairWord v1 v2).toNat.testBit i = v2.toNat.testBit i := by
    intro i hi
    simp [toNat_pairWord, show ¬ 8 ≤ i by omega]
  have hhigh : ∀ i, 4 ≤ i → (v3.toNat >>> 4).testBit i = false := by
    intro i hi
    rw [Nat.testBit_shiftRight]
    exact Nat.testBit_lt_two_pow (v3.isLt.trans_le (Nat.pow_le_pow_right (by decide) (by omega)))
  have hbit : ∀ i, ((v3.toNat >>> 4) &&& (0xFF - v2.toNat) &&& 0xF).testBit i =
      ((v3.toNat >>> 4).testBit i && (decide (i < 8) && !v2.toNat.testBit i) && decide (i < 4)) := by
    intro i
    rw [Nat.testBit_and, Nat.testBit_and, show 0xFF - v2.toNat = 2 ^ 8 - (v2.toNat + 1) by omega,
      Nat.testBit_two_pow_sub_succ v2.isLt, show 0xF = 2 ^ 4 - 1 from rfl, Nat.testBit_two_pow_sub_one]
  rw [or_eq_left_iff_testBit]
  constructor
  · intro h
    refine Nat.zero_of_testBit_eq_false fun i => ?_
    have hi := h i
    have hw := hword i
    rw [hbit]
    grind
  · intro h i hi
    have hb := hbit i
    have hw := hword i
    have hh := hhigh i
    rw [h, Nat.zero_testBit] at hb
    grind

/-! ## The round trip of an image -/

/-- Group `k` after PACK and UNPACK: the odd word is the canonical one, the even word has the high nibble of `v3` OR-ed in. -/
theorem wordAt_unpack_pack : ∀ (x : List Byte) (k : Nat), 4 * k + 3 < x.length →
    wordAt (unpack (pack x)) (2 * k + 1) = wordAt (canon x) (2 * k + 1) ∧
      wordAt (unpack (pack x)) (2 * k) = wordAt (canon x) (2 * k) ||| (byteAt x (4 * k + 2) >>> 4)
  | v1 :: v2 :: v3 :: v4 :: _, 0, _ => ⟨congrArg BitVec.toNat (unpackW1_packB1 v2 v3 v4), toNat_unpackW0_pack v1 v2 v3⟩
  | _ :: _ :: _ :: _ :: rest, k + 1, hk => by
    have ih := wordAt_unpack_pack rest k (by simp only [List.length_cons] at hk; omega)
    simpa [wordAt, byteAt, unpack, pack, canon, Nat.mul_add] using ih
  | [], _, hk | [_], _, hk | [_, _], _, hk | [_, _, _], _, hk => by simp at hk

/-- The round trip gives the canonical view exactly when no group loses bits. -/
theorem unpack_pack_eq_canon_iff : ∀ x : List Byte,
    unpack (pack x) = canon x ↔ ∀ k, 4 * k + 3 < x.length →
      (byteAt x (4 * k + 2) >>> 4) &&& (0xFF - byteAt x (4 * k + 1)) &&& 0xF = 0
  | v1 :: v2 :: v3 :: v4 :: rest => by
    have ih := unpack_pack_eq_canon_iff rest
    have hgroup : unpackW0 (packB0 v1 v2) (packB1 v2 v3) = pairWord v1 v2 ↔
        (v3.toNat >>> 4) &&& (0xFF - v2.toNat) &&& 0xF = 0 := by
      rw [← BitVec.toNat_inj, toNat_unpackW0_pack, pairWord_or_high_eq_iff]
    have hnext : ∀ k, 4 * (k + 1) + 3 < (v1 :: v2 :: v3 :: v4 :: rest).length ↔ 4 * k + 3 < rest.length := by
      simp only [List.length_cons]
      omega
    rw [← Nat.and_forall_add_one]
    simp only [hnext]
    simp [pack, unpack, canon, unpackW1_packB1, hgroup, ih, byteAt, Nat.mul_add]
  | [] | [_] | [_, _] | [_, _, _] => by simp [pack, unpack, canon]

/-- Group by group, the bytes of a valid image that carry a top nibble are nibbles (30_encoding.md R80). -/
theorem validImage_cons_iff (v1 v2 v3 v4 : Byte) (rest : List Byte) :
    validImage (v1 :: v2 :: v3 :: v4 :: rest) = true ↔ v1.toNat < 16 ∧ v3.toNat < 16 ∧ validImage rest = true := by
  simp [validImage, and_assoc]

theorem validImage_length : ∀ x : List Byte, validImage x = true → x.length % 4 = 0
  | [], _ => rfl
  | v1 :: v2 :: v3 :: v4 :: rest, h => by
    obtain ⟨-, -, hrest⟩ := (validImage_cons_iff v1 v2 v3 v4 rest).1 h
    have ih := validImage_length rest hrest
    simp only [List.length_cons]
    omega
  | [_], h | [_, _], h | [_, _, _], h => by simp [validImage] at h

theorem unpackW0_pack_of_nibble (v1 v2 v3 : Byte) (h3 : v3.toNat < 16) :
    unpackW0 (packB0 v1 v2) (packB1 v2 v3) = pairWord v1 v2 := by
  rw [← BitVec.toNat_inj, toNat_unpackW0_pack, Nat.shiftRight_eq_div_pow, Nat.div_eq_of_lt h3, Nat.or_zero]

/-- On a valid image the law holds without exception (R123). -/
theorem unpack_pack_of_validImage : ∀ x : List Byte, validImage x = true → unpack (pack x) = canon x
  | [], _ => rfl
  | v1 :: v2 :: v3 :: v4 :: rest, h => by
    obtain ⟨-, h3, hrest⟩ := (validImage_cons_iff v1 v2 v3 v4 rest).1 h
    simp [pack, unpack, canon, unpackW1_packB1, unpackW0_pack_of_nibble v1 v2 v3 h3, unpack_pack_of_validImage rest hrest]
  | [_], h | [_, _], h | [_, _, _], h => by simp [validImage] at h

/-! ## The one valid pre-image (R125) -/

theorem toNat_high (b : Byte) : (b >>> 4).toNat = b.toNat / 2 ^ 4 := by
  rw [BitVec.toNat_ushiftRight, Nat.shiftRight_eq_div_pow]

theorem toNat_low (b : Byte) : (b &&& 0x0F#8).toNat = b.toNat % 2 ^ 4 := by
  rw [BitVec.toNat_and]
  exact Nat.and_two_pow_sub_one_eq_mod _ 4

theorem toNat_high_lt (b : Byte) : (b >>> 4).toNat < 16 := by
  have := b.isLt
  rw [toNat_high]
  omega

theorem toNat_low_lt (b : Byte) : (b &&& 0x0F#8).toNat < 16 := by
  rw [toNat_low]
  exact Nat.mod_lt _ (by decide)

/-- The second byte of a pre-image group lays its nibbles as PACK lays those of its second byte. -/
theorem nibblePairs_cons (b0 b1 b2 : Byte) (rest : List Byte) :
    nibblePairs (b0 :: b1 :: b2 :: rest) = (b0 >>> 4) :: packB1 b0 (b1 >>> 4) :: (b1 &&& 0x0F#8) :: b2 :: nibblePairs rest :=
  rfl

/-- A valid group packs to `b0`, `b1` exactly when its bytes are R125's: both say that the same five nibbles agree. -/
theorem pack_group_iff (v1 v2 v3 b0 b1 : Byte) (h1 : v1.toNat < 16) (h3 : v3.toNat < 16) :
    (packB0 v1 v2 = b0 ∧ packB1 v2 v3 = b1) ↔ v1 = b0 >>> 4 ∧ v2 = packB1 b0 (b1 >>> 4) ∧ v3 = b1 &&& 0x0F#8 := by
  have h2 := v2.isLt
  have hb0 := b0.isLt
  have hb1 := b1.isLt
  simp only [← BitVec.toNat_inj, toNat_packB0_digits, toNat_packB1_digits _ _ h3,
    toNat_packB1_digits _ _ (toNat_high_lt b1), toNat_high, toNat_low]
  omega

theorem validImage_nibblePairs : ∀ p : List Byte, validImage (nibblePairs p) = true
  | b0 :: b1 :: b2 :: rest => by
    rw [nibblePairs_cons, validImage_cons_iff]
    exact ⟨toNat_high_lt b0, toNat_low_lt b1, validImage_nibblePairs rest⟩
  | [] | [_] | [_, _] => rfl

theorem pack_nibblePairs : ∀ p : List Byte, p.length % 3 = 0 → pack (nibblePairs p) = p
  | [], _ => rfl
  | b0 :: b1 :: b2 :: rest, h => by
    obtain ⟨h0, h1⟩ := (pack_group_iff _ _ _ b0 b1 (toNat_high_lt b0) (toNat_low_lt b1)).2 ⟨rfl, rfl, rfl⟩
    rw [nibblePairs_cons, pack, h0, h1, pack_nibblePairs rest (by simp only [List.length_cons] at h; omega)]
  | [_], h | [_, _], h => by simp at h

theorem nibblePairs_pack : ∀ x : List Byte, validImage x = true → nibblePairs (pack x) = x
  | [], _ => rfl
  | v1 :: v2 :: v3 :: v4 :: rest, h => by
    obtain ⟨h1, h3, hrest⟩ := (validImage_cons_iff v1 v2 v3 v4 rest).1 h
    obtain ⟨e1, e2, e3⟩ := (pack_group_iff v1 v2 v3 _ _ h1 h3).1 ⟨rfl, rfl⟩
    rw [pack, nibblePairs_cons, ← e1, ← e2, ← e3, nibblePairs_pack rest hrest]
  | [_], h | [_, _], h | [_, _, _], h => by simp [validImage] at h

/-- Group `k` of the pre-image, by R125's formulas. -/
theorem byteAt_nibblePairs : ∀ (p : List Byte) (k : Nat), 3 * k + 2 < p.length →
    byteAt (nibblePairs p) (4 * k) = byteAt p (3 * k) >>> 4 ∧
      byteAt (nibblePairs p) (4 * k + 1) = ((byteAt p (3 * k) &&& 0xF) <<< 4) ||| (byteAt p (3 * k + 1) >>> 4) ∧
      byteAt (nibblePairs p) (4 * k + 2) = byteAt p (3 * k + 1) &&& 0xF ∧
      byteAt (nibblePairs p) (4 * k + 3) = byteAt p (3 * k + 2)
  | b0 :: b1 :: b2 :: _, 0, _ =>
    ⟨BitVec.toNat_ushiftRight b0 4, toNat_packB1 b0 (b1 >>> 4), BitVec.toNat_and b1 _, rfl⟩
  | _ :: _ :: _ :: rest, k + 1, hk => by
    have ih := byteAt_nibblePairs rest k (by simp only [List.length_cons] at hk; omega)
    simpa [byteAt, nibblePairs, Nat.mul_add] using ih
  | [], _, hk | [_], _, hk | [_, _], _, hk => by simp at hk

/-- Images of whole groups that unpack to the same words are the same: the words of a group determine its bytes (R82). -/
theorem unpack_injective : ∀ p q : List Byte, p.length % 3 = 0 → p.length = q.length → unpack p = unpack q → p = q
  | [], q, _, hlen, _ => (List.eq_nil_of_length_eq_zero hlen.symm).symm
  | b0 :: b1 :: b2 :: p, c0 :: c1 :: c2 :: q, hp, hlen, h => by
    simp only [unpack, List.cons.injEq] at h
    obtain ⟨hw0, hw1, hrest⟩ := h
    obtain ⟨h0, h1, h2⟩ := (unpack_group_iff b0 b1 b2 _ _).1 (unpack_group b0 b1 b2)
    obtain ⟨g0, g1, g2⟩ := (unpack_group_iff c0 c1 c2 _ _).1 (unpack_group c0 c1 c2)
    rw [hw0, hw1, ← g1] at h1
    rw [hw0, ← g0] at h0
    rw [hw1, ← g2] at h2
    rw [BitVec.toNat_inj.1 h0, BitVec.toNat_inj.1 h1, BitVec.toNat_inj.1 h2,
      unpack_injective p q (by simp only [List.length_cons] at hp; omega) (by simpa using hlen) hrest]
  | [_], _, hp, _, _ | [_, _], _, hp, _, _ => by simp at hp
  | _ :: _ :: _ :: _, [], _, hlen, _ | _ :: _ :: _ :: _, [_], _, hlen, _ | _ :: _ :: _ :: _, [_, _], _, hlen, _ => by
    simp at hlen

/-- Settles O29: the laws of each group, and the inverse of PACK on valid images. -/
theorem codecRoundTripLaw : Obligations.CodecRoundTripLaw := by
  refine ⟨fun x _ => ⟨wordAt_unpack_pack x, unpack_pack_eq_canon_iff x, unpack_pack_of_validImage x⟩,
    fun x y hx hy h => ?_⟩
  rw [← nibblePairs_pack x hx, h, nibblePairs_pack y hy]

/-- Settles O30: `nibblePairs` inverts PACK on both sides, and the canonical view follows by the round-trip law. -/
theorem packedImageHasOnePreimage : Obligations.PackedImageHasOnePreimage := by
  refine ⟨fun p hp => ⟨validImage_nibblePairs p, pack_nibblePairs p hp, ?_, ?_, byteAt_nibblePairs p⟩, unpack_injective⟩
  · rintro x hx rfl
    exact (nibblePairs_pack x hx).symm
  · rw [← unpack_pack_of_validImage _ (validImage_nibblePairs p), pack_nibblePairs p hp]

end Sys2Proof.Machine

/-! # Proofs: the bring-up of a ROM -/

namespace Sys2Proof.Machine

/-! ## Bring-up (70_reset_and_hazards.md R262) -/

theorem core_run_succ (k : Nat) {s t : State} (h : step s = .next t) :
    Sys2Proof.core.run (k + 1) s = Sys2Proof.core.run k t := by
  have hstep : Sys2Proof.core.step s = .next t := h
  simp only [Host.Core.run, hstep]

/-- The step with a command presented by the host or the core runs that command. -/
theorem step_presenting (i : Instr) (stream : List Byte) (d : Draws) (rest : List Stimulus) (s : State)
    (hi : i.wf = true) (hp : s.pending = presenting i stream d :: rest) :
    step s = exec i ({ s with pending := rest }.present stream d) := by
  rw [step_of_pending s _ rest hp]
  exact runCommand_of_decode _ stream d i _ (decodeOfEncodeIsIdentity i hi)

/-- What an accepted PACK or UNPACK leaves when exactly its stream is presented with it: its one event, and nothing
left to read. -/
def State.transcoded (e : Event) (d : Draws) (rest : List Stimulus) (s : State) : State :=
  ({ s with pending := rest, input := [], draws := d }.emit e).complete

theorem transcode_presented (group : Nat) (stream : List Byte) (d : Draws) (result : List Byte → Event)
    (rest : List Stimulus) (s : State) (hl : stream.length % group = 0) :
    transcode group stream.length result ({ s with pending := rest }.present stream d) =
      .next (s.transcoded (result stream) d rest) := by
  rw [transcode_supplied group stream.length result _ hl (Nat.le_refl _)]
  simp [State.present, State.transcoded]

theorem step_presenting_pack (rom : List Byte) (d : Draws) (rest : List Stimulus) (s : State) (hf : s.fault = .none)
    (hlen : rom.length < 2 ^ 28) (hl : rom.length % 4 = 0)
    (hp : s.pending = presenting (.pack rom.length) rom d :: rest) :
    step s = .next (s.transcoded (.packOut (pack rom)) d rest) := by
  have hwf : (Instr.pack rom.length).wf = true := decide_eq_true hlen
  have hready : ({ s with pending := rest }.present rom d).fault = .none := hf
  rw [step_presenting _ rom d rest s hwf hp, exec_pack_ready _ _ hready, transcode_presented 4 rom d _ rest s hl]

theorem step_presenting_unpack (p : List Byte) (d : Draws) (rest : List Stimulus) (s : State) (hf : s.fault = .none)
    (hlen : p.length < 2 ^ 28) (hl : p.length % 3 = 0) (hp : s.pending = presenting (.unpack p.length) p d :: rest) :
    step s = .next (s.transcoded (.unpackOut (unpack p)) d rest) := by
  have hwf : (Instr.unpack p.length).wf = true := decide_eq_true hlen
  have hready : ({ s with pending := rest }.present p d).fault = .none := hf
  rw [step_presenting _ p d rest s hwf hp, exec_unpack_ready _ _ hready, transcode_presented 3 p d _ rest s hl]

/-- The step in which the core changes its record. -/
theorem step_core (cs : CoreState) (rest : List Stimulus) (s : State) (hp : s.pending = .core cs :: rest) :
    step s = .next { s with pending := rest, cs := cs } := step_of_pending s _ rest hp

/-- PACK of a nibble-pair ROM, UNPACK of what it gives, and the core's initialisation (R262 steps 1 to 3). -/
theorem core_run_rom_init (rom : List Byte) (init : CoreState) (d : Draws) (rest : List Stimulus) (s : State)
    (hf : s.fault = .none) (hlen : rom.length < 2 ^ 28) (hl : rom.length % 4 = 0)
    (hp : s.pending = presenting (.pack rom.length) rom d :: presenting (.unpack (pack rom).length) (pack rom) d ::
      .core init :: rest) :
    Sys2Proof.core.run 3 s = .next { s with
      pending := rest, input := [], draws := d, cs := init, status := .ok
      history := s.history ++ [.packOut (pack rom), .unpackOut (unpack (pack rom))] } := by
  have hplen := pack_length rom
  have hpack := step_presenting_pack rom d _ s hf hlen hl hp
  have hunpack := step_presenting_unpack (pack rom) d (.core init :: rest) (s.transcoded (.packOut (pack rom)) d _)
    hf (by omega) (by omega) rfl
  rw [core_run_succ 2 hpack, core_run_succ 1 hunpack]
  refine (core_run_succ 0 (step_core init rest _ rfl)).trans ?_
  simp [Host.Core.run, State.transcoded, State.emit, State.complete]

/-- What is pending once the host has started the bring-up of a nibble-pair ROM of whole groups (R262). -/
theorem hostBoot_pending (rom : List Byte) (init : CoreState) (d : Draws) (s : State) (hlen : rom.length < 2 ^ 28)
    (hl : rom.length % 4 = 0) :
    (hostBoot rom false init d s).pending =
      presenting (.pack rom.length) rom d :: presenting (.unpack (pack rom).length) (pack rom) d :: .core init ::
        presenting .load [] d :: .host .loadReturned :: s.pending := by
  rw [hostBoot, bootOrders, if_pos hlen]
  simp [romOrders, hl]

/-- The step in which the host, not stopped, starts the bring-up. -/
theorem step_boot (rom : List Byte) (init : CoreState) (d : Draws) (rest : List Stimulus) (s : State)
    (hf : s.fault = .none) (hp : s.pending = .host (.boot rom false init d) :: rest) :
    step s = .next (hostBoot rom false init d { s with pending := rest }) := by
  rw [step_of_pending s _ rest hp, respond]
  rcases hostAct_cases (.boot rom false init d) { s with pending := rest } with ⟨-, e⟩ | ⟨hstopped, -⟩
  · rw [e, hostDo]
  · exact absurd hf hstopped

/-- Settles O31: the four steps are the host's order, PACK of the ROM, UNPACK of what PACK gave, and the core's
initialisation; on a valid image the words are the canonical ones. -/
theorem bringUpDeliversTheRom : Obligations.BringUpDeliversTheRom := by
  intro s rom init d rest hf hvalid hlen hp
  have hl := validImage_length rom hvalid
  have hrun := core_run_rom_init rom init d _ (hostBoot rom false init d { s with pending := rest }) hf hlen hl
    (hostBoot_pending rom init d _ hlen hl)
  refine ⟨_, (core_run_succ 3 (step_boot rom init d rest s hf hp)).trans hrun, rfl, rfl, hf, ?_, rfl⟩
  rw [unpack_pack_of_validImage rom hvalid]
  rfl

end Sys2Proof.Machine

/-! # Proofs: SAVE and LOAD -/

namespace Sys2Proof.Machine

/-! ## SAVE, end by end (41_statestore.md R143) -/

theorem saveState_of_no_accessor (s : State) (ha : s.draws.accOk = false) : saveState s = s.raise .corruptState :=
  if_pos ha

theorem saveState_of_no_medium (s : State) (ha : s.draws.accOk = true) (hm : s.draws.mountOk = false) :
    saveState s = s.raise .storageUnavailable := by
  simp [saveState, ha, hm]

theorem saveState_of_succeeds (s : State) (hd : saveSucceeds s.build s.draws) :
    saveState s = { s with file := some (ser s.build s.cs) }.complete := by
  obtain ⟨ha, hm, hfit⟩ := hd
  simp [saveState, ha, hm, hfit]

theorem saveState_of_short_write (s : State) (ha : s.draws.accOk = true) (hm : s.draws.mountOk = true)
    (hshort : s.draws.accepted < s.build.stateBytes) :
    saveState s = { s with file := some ((ser s.build s.cs).take s.draws.accepted) }.raise .writeFailure := by
  simp [saveState, ha, hm, Nat.not_le.2 hshort]

/-- SAVE changes `FILE` and `STATUS` only: none of its statuses is terminal. -/
theorem saveState_frame (s : State) :
    saveState s = { s with file := (saveState s).file, status := (saveState s).status } := by
  rcases saveState_cases s with ⟨-, e⟩ | ⟨-, -, e⟩ | ⟨-, -, -, e⟩ | ⟨-, -, -, e⟩ <;> rw [e] <;> rfl

@[simp] theorem saveState_build (s : State) : (saveState s).build = s.build := by rw [saveState_frame]

@[simp] theorem saveState_cs (s : State) : (saveState s).cs = s.cs := by rw [saveState_frame]

/-- The blob with its end cut off is not the blob. -/
theorem take_ser_ne (b : Build) (cs : CoreState) {n : Nat} (hn : n < b.stateBytes) : (ser b cs).take n ≠ ser b cs := by
  intro e
  have hlen : b.stateBytes ≤ n := by simpa using e
  omega

/-- Settles O36: the four ends of SAVE, each under its own conditions. -/
theorem saveWritesTheBlobOrReports : Obligations.SaveWritesTheBlobOrReports := by
  refine ⟨decodeOfEncodeIsIdentity .save rfl, fun s hf => ⟨saveState s, exec_ready .save s hf nofun nofun,
    saveState_frame s, fun ha => ?_, fun ha hm => ?_, fun ha hm hfit => ?_, fun ha hm hshort => ?_⟩⟩
  · rw [saveState_of_no_accessor s ha]
    exact ⟨rfl, rfl⟩
  · rw [saveState_of_no_medium s ha hm]
    exact ⟨rfl, rfl⟩
  · rw [saveState_of_succeeds s ⟨ha, hm, hfit⟩]
    exact ⟨rfl, rfl⟩
  · rw [saveState_of_short_write s ha hm hshort]
    exact ⟨rfl, _, rfl, List.length_take_of_le (by simpa using hshort.le), List.take_prefix .., take_ser_ne _ _ hshort⟩

theorem exec_save_of_succeeds (s : State) (hf : s.fault = .none) (hd : saveSucceeds s.build s.draws) :
    exec .save s = .next { s with file := some (ser s.build s.cs) }.complete := by
  rw [exec_ready .save s hf nofun nofun, Instr.after, saveState_of_succeeds s hd]

/-- Settles O37: a successful SAVE leaves the blob, which is made of the build and the record. -/
theorem savedBlobDependsOnRecordOnly : Obligations.SavedBlobDependsOnRecordOnly := by
  intro s u hs hu hb hcs hds hdu
  refine ⟨_, _, exec_save_of_succeeds s hs hds, exec_save_of_succeeds u hu hdu, rfl, rfl, nofun, ?_⟩
  rw [State.complete_file, State.complete_file, hb, hcs]

/-! ## LOAD, end by end (R144) -/

theorem loadState_of_no_medium (s : State) (hm : s.draws.mountOk = false) : loadState s = s.raise .storageUnavailable :=
  if_pos hm

theorem loadState_of_no_file (s : State) (hm : s.draws.mountOk = true) (hfile : s.file = none) :
    loadState s = s.raise .notFound := by
  simp [loadState, hm, hfile]

/-- LOAD of a file that opens is the reading of its bytes. -/
theorem loadState_of_file (s : State) {blob : List Byte} (hm : s.draws.mountOk = true) (hfile : s.file = some blob) :
    loadState s = loadBlob blob s := by
  simp [loadState, hm, hfile]

/-- A blob of which fewer than `STATE_BYTES` bytes are read, or no accessor to commit it with: it stays in the staging buffer. -/
theorem loadBlob_of_corrupt (blob : List Byte) (s : State)
    (hbad : min blob.length s.draws.readLimit < s.build.stateBytes ∨ s.draws.accOk = false) :
    loadBlob blob s =
      { s with stg := blob.take (bytesGot s.build s.draws.readLimit blob) }.raise .corruptState := by
  have hgot : min blob.length s.draws.readLimit < s.build.stateBytes →
      bytesGot s.build s.draws.readLimit blob < s.build.stateBytes := fun h => (min_le_left _ _).trans_lt h
  rcases hbad with hshort | ha
  · exact if_pos (hgot hshort)
  · simp [loadBlob, ha]

theorem loadBlob_of_whole (blob : List Byte) (s : State)
    (hlen : s.build.stateBytes ≤ min blob.length s.draws.readLimit) (ha : s.draws.accOk = true) :
    loadBlob blob s = s.loaded blob := by
  have hgot : ¬ bytesGot s.build s.draws.readLimit blob < s.build.stateBytes := by simp [bytesGot, hlen]
  simp [loadBlob, hgot, ha, State.loaded]

/-- LOAD changes `CS`, `STG`, the history and `STATUS` only: none of its statuses is terminal. -/
theorem loadState_frame (s : State) :
    loadState s = { s with
      cs := (loadState s).cs, stg := (loadState s).stg
      history := (loadState s).history, status := (loadState s).status } := by
  rcases loadState_cases s with ⟨-, e⟩ | ⟨-, -, e⟩ | ⟨_, -, -, -, e⟩ | ⟨_, -, -, -, -, e⟩ <;> rw [e]
  · rfl
  · rfl
  · rfl
  · simp [State.loaded, State.emit, State.complete]

/-- The bytes of a field end within the blob. -/
theorem tableOffset_add_tableWire_le (b : Build) (f : Field) (h : f.inRecord b) :
    tableOffset b.intSlots f + tableWire f ≤ b.stateBytes := by
  obtain ⟨before, after, e, -, ho⟩ := recordFields_standsAt b f h
  rw [← wireLength_recordFields, e, wireLength_append, wireLength_cons, ho]
  omega

/-- Bytes past `STATE_BYTES` belong to no field. -/
theorem fieldBytes_take (b : Build) (blob : List Byte) (f : Field) (h : f.inRecord b) :
    fieldBytes b (blob.take b.stateBytes) f = fieldBytes b blob f := by
  have hend := tableOffset_add_tableWire_le b f h
  rw [fieldBytes, fieldBytes, List.drop_take, List.take_take, Nat.min_eq_left (by omega)]

/-- Settles O38: the four ends of LOAD, each under its own conditions; what it commits is the record read from the file. -/
theorem loadReadsTheBlobOrReports : Obligations.LoadReadsTheBlobOrReports := by
  refine ⟨decodeOfEncodeIsIdentity .load rfl, fun s hf hcs => ?_⟩
  have hexec := exec_ready .load s hf nofun nofun
  refine ⟨loadState s, hexec, loadState_frame s, fun hm => ?_, fun hm hfile => ?_, fun blob hm hfile hbad => ?_,
    fun blob hm hfile hlen ha => ?_⟩
  · rw [loadState_of_no_medium s hm]
    exact ⟨rfl, rfl, rfl⟩
  · rw [loadState_of_no_file s hm hfile]
    exact ⟨rfl, rfl, rfl⟩
  · rw [loadState_of_file s hm hfile, loadBlob_of_corrupt blob s hbad]
    exact ⟨rfl, rfl, rfl⟩
  · have hread : (loadState s).cs = de s.build (blob.take s.build.stateBytes) := exec_load_cs hf hcs ha hm hfile hlen hexec
    refine ⟨?_, ?_, hread ▸ de_wf .., fun f h => by rw [hread, accGet_de _ _ f h, fieldBytes_take _ _ f h]⟩ <;>
      rw [loadState_of_file s hm hfile, loadBlob_of_whole blob s hlen ha] <;> rfl

/-! ## The round trip (R145) -/

/-- The step of a SAVE that succeeds. -/
theorem step_presenting_save (stream : List Byte) (d : Draws) (rest : List Stimulus) (s : State) (hf : s.fault = .none)
    (hd : saveSucceeds s.build d) (hp : s.pending = presenting .save stream d :: rest) :
    step s = .next ({ s.present stream d with pending := rest, file := some (ser s.build s.cs) }.complete) := by
  rw [step_presenting .save stream d rest s rfl hp]
  exact exec_save_of_succeeds ({ s with pending := rest }.present stream d) hf hd

/-- A LOAD that succeeds on a file that holds the blob of a well-formed record gives the core that record. -/
theorem step_presenting_load (stream : List Byte) (d : Draws) (rest : List Stimulus) (r : CoreState) (s : State)
    (hf : s.fault = .none) (hr : r.wf s.build = true) (hcs : s.cs.wf s.build = true) (hd : loadSucceeds s.build d)
    (hfile : s.file = some (ser s.build r)) (hp : s.pending = presenting .load stream d :: rest) :
    ∃ t, step s = .next t ∧ t.cs = r ∧ t.status = .ok ∧ t.history = s.history ++ [.coreRefresh] ∧ t.pending = rest := by
  obtain ⟨ha, hm, hlimit⟩ := hd
  have hlen : s.build.stateBytes ≤ min (ser s.build r).length d.readLimit := by simp [hlimit]
  obtain ⟨t, hexec, hframe, -, -, -, hok⟩ :=
    loadReadsTheBlobOrReports.2 ({ s with pending := rest }.present stream d) hf hcs
  obtain ⟨hst, hh, -, -⟩ := hok _ hm hfile hlen ha
  have hread := exec_load_cs (s := { s with pending := rest }.present stream d) hf hcs ha hm hfile hlen hexec
  refine ⟨t, (step_presenting .load stream d rest s rfl hp).trans hexec, ?_, hst, hh, by rw [hframe]; rfl⟩
  calc t.cs = de s.build ((ser s.build r).take s.build.stateBytes) := hread
    _ = de s.build (ser s.build r) := by rw [List.take_of_length_le (by simp)]
    _ = r := deserialiseOfSerialiseIsIdentity s.build r hr

/-- Settles O40: SAVE leaves the blob of the record in `FILE`, the core's change keeps it there, and LOAD reads it back. -/
theorem saveThenLoadRestoresTheRecord : Obligations.SaveThenLoadRestoresTheRecord := by
  intro s d1 d2 stream1 stream2 q rest hf hcs hq hd1 hd2 hp
  have hsave := step_presenting_save stream1 d1 _ s hf hd1 hp
  obtain ⟨t, hload, ht⟩ := step_presenting_load stream2 d2 rest s.cs
    { s.present stream1 d1 with
      pending := presenting .load stream2 d2 :: rest, file := some (ser s.build s.cs), status := .ok, cs := q }
    hf hcs hq hd2 rfl rfl
  refine ⟨t, ?_, ht⟩
  rw [core_run_succ 2 hsave, core_run_succ 1 (step_core q _ _ rfl)]
  exact core_run_succ 0 hload

/-! ## What a failed SAVE or LOAD leaves (R146, R147, R274) -/

/-- A SAVE that ends in `WriteFailure` leaves a file too short to be loaded. -/
theorem saveState_file_of_writeFailure (s : State) (h : (saveState s).status = .writeFailure) :
    ∃ p, (saveState s).file = some p ∧ p.length < s.build.stateBytes := by
  rcases saveState_cases s with ⟨-, e⟩ | ⟨-, -, e⟩ | ⟨-, -, -, e⟩ | ⟨-, -, hshort, e⟩ <;> rw [e] at h ⊢
  · cases h
  · cases h
  · cases h
  · exact ⟨_, rfl, (List.length_take_le ..).trans_lt hshort⟩

/-- Settles O43: the file is shorter than a blob, and LOAD stops at the read length. -/
theorem failedSaveDestroysThePreviousSave : Obligations.FailedSaveDestroysThePreviousSave := by
  intro s t u hf h hst hfile hb hfu hm
  rw [exec_ready .save s hf nofun nofun] at h
  cases h
  obtain ⟨p, hp, hlen⟩ := saveState_file_of_writeFailure s hst
  have hbuild : u.build = s.build := hb.trans (saveState_build s)
  have hshort : min p.length u.draws.readLimit < u.build.stateBytes := (min_le_left _ _).trans_lt (hbuild ▸ hlen)
  refine ⟨loadState u, exec_ready .load u hfu nofun nofun, ?_⟩
  rw [loadState_of_file u hm (hfile.trans hp), loadBlob_of_corrupt p u (.inl hshort)]
  exact ⟨rfl, rfl, rfl⟩

/-- Settles O41: the end of LOAD with no file, whose status is recoverable. -/
theorem loadWithoutAFileIsNotFound : Obligations.LoadWithoutAFileIsNotFound := by
  intro s hf hm hfile
  rw [exec_ready .load s hf nofun nofun]
  exact ⟨congrArg Host.Outcome.next (loadState_of_no_file s hm hfile), rfl⟩

/-- Only the end of LOAD that commits writes `CS` or emits, and that end completes. -/
theorem loadState_of_status_ne_ok (s : State) (h : (loadState s).status ≠ .ok) :
    (loadState s).cs = s.cs ∧ (loadState s).history = s.history := by
  rcases loadState_cases s with ⟨-, e⟩ | ⟨-, -, e⟩ | ⟨_, -, -, -, e⟩ | ⟨_, -, -, -, -, e⟩ <;> rw [e] at h ⊢
  · exact ⟨rfl, rfl⟩
  · exact ⟨rfl, rfl⟩
  · exact ⟨rfl, rfl⟩
  · exact absurd rfl h

/-- A command that is neither PACK nor UNPACK was discarded, or did what its meaning says. -/
theorem exec_next_of_not_codec (i : Instr) (hp : ∀ len, i ≠ .pack len) (hu : ∀ len, i ≠ .unpack len) {s t : State}
    (h : exec i s = .next t) : t = s ∨ t = Instr.after i s := by
  rcases exec_next i s t h with ⟨-, e⟩ | ⟨-, ⟨len, e, -⟩ | ⟨len, e, -⟩ | ⟨-, -, e⟩⟩
  · exact .inl e
  · exact absurd e (hp len)
  · exact absurd e (hu len)
  · exact .inr e

/-- Settles O42: a discarded command changes nothing, and an accepted one ends as SAVE and LOAD do. -/
theorem failedLoadAndSaveLeaveTheRecord : Obligations.FailedLoadAndSaveLeaveTheRecord := by
  constructor
  · intro s t h hst
    rcases exec_next_of_not_codec .load nofun nofun h with rfl | rfl
    · exact ⟨rfl, rfl⟩
    · exact loadState_of_status_ne_ok s hst
  · intro s t h
    rcases exec_next_of_not_codec .save nofun nofun h with rfl | rfl
    · rfl
    · exact saveState_cs s

end Sys2Proof.Machine

/-! # Proofs: the display compositor -/

namespace Sys2Proof.Machine

/-! ## The four commands, once accepted (42_compositor.md R171 to R174) -/

theorem exec_setPixel_ready (x y : Nat) (val : Bool) (s : State) (hf : s.fault = .none) :
    exec (.setPixel x y val) s = .next (pixelWrite x y val s).complete :=
  exec_ready (.setPixel x y val) s hf nofun nofun

theorem exec_setIcon_ready (i : Nat) (val : Bool) (s : State) (hf : s.fault = .none) :
    exec (.setIcon i val) s = .next (iconWrite i val s).complete :=
  exec_ready (.setIcon i val) s hf nofun nofun

theorem exec_render_clean (s : State) (hf : s.fault = .none) (hd : s.dirty = false) :
    exec .render s = .next s.complete := by
  rw [exec_ready .render s hf nofun nofun, Instr.after, hd, if_neg Bool.false_ne_true]

theorem exec_render_dirty (s : State) (hf : s.fault = .none) (hd : s.dirty = true) :
    exec .render s = .next (redraw s).complete := by
  rw [exec_ready .render s hf nofun nofun, Instr.after, hd, if_pos rfl]

theorem exec_invalidate_ready (s : State) (hf : s.fault = .none) :
    exec .invalidate s = .next s.markDirty.complete :=
  exec_ready .invalidate s hf nofun nofun

/-- Settles O44: in range the one cell is set and the display marked dirty, out of range nothing is. -/
theorem setPixelWritesOneCell : Obligations.SetPixelWritesOneCell := by
  refine ⟨fun x y val hx hy => decodeOfEncodeIsIdentity (.setPixel x y val) (by simp [Instr.wf, hx, hy]),
    fun s x y val hf => ?_⟩
  rw [exec_setPixel_ready x y val s hf]
  rcases pixelWrite_cases x y val s with ⟨hin, e⟩ | ⟨hout, e⟩ <;> rw [e]
  · have hxy := (inMatrix_iff x y).1 hin
    have hcell := fun x' y' => Matrix.cell_setCell s.mtx x y val x' y' hxy
    refine ⟨fun _ _ => ⟨_, rfl, rfl, (hcell x y).trans (if_pos ⟨rfl, rfl⟩), fun x' y' hne => ?_⟩,
      fun hno => absurd hxy hno⟩
    exact (hcell x' y').trans (if_neg (not_and_or.2 hne))
  · have hxy : ¬(x < 32 ∧ y < 16) := by rw [← inMatrix_iff, hout]; exact Bool.false_ne_true
    exact ⟨fun hx hy => absurd ⟨hx, hy⟩ hxy, fun _ => rfl⟩

/-- Settles O45: below `ICON_NUM` the one entry is set and the display marked dirty, at and above it nothing is. -/
theorem setIconWritesOneEntry : Obligations.SetIconWritesOneEntry := by
  refine ⟨fun i val hi => decodeOfEncodeIsIdentity (.setIcon i val) (decide_eq_true hi), fun s i val hf hlen => ?_⟩
  rw [exec_setIcon_ready i val s hf]
  rcases iconWrite_cases i val s with ⟨hin, e⟩ | ⟨hout, e⟩ <;> rw [e]
  · have hi := (inIcons_iff s.build i).1 hin
    refine ⟨fun _ => ⟨_, rfl, rfl, List.length_set .., List.getElem?_set_self (hlen ▸ hi), fun j hj => ?_⟩,
      fun hno => absurd hi (Nat.not_lt.2 hno)⟩
    exact List.getElem?_set_ne (Ne.symm hj)
  · have hi : ¬ i < s.build.iconNum := by rw [← inIcons_iff, hout]; exact Bool.false_ne_true
    exact ⟨fun hno => absurd hno hi, fun _ => rfl⟩

/-- Settles O46: what a dirty RENDER writes is the framebuffer of the matrix and the icons, laid out as R97 says. -/
theorem renderCopiesTheDisplayWhenDirty : Obligations.RenderCopiesTheDisplayWhenDirty :=
  ⟨decodeOfEncodeIsIdentity .render rfl, fun s hf =>
    ⟨exec_render_clean s hf, fun hd => ⟨framebuffer s.build s.mtx s.icn, exec_render_dirty s hf hd,
      framebuffer_length .., framebuffer_matrix s.build s.mtx s.icn, framebuffer_icon s.build s.mtx s.icn⟩⟩⟩

/-- INVALIDATE then RENDER redraws, whatever `DIRTY` was. -/
theorem execAll_invalidate_render (s : State) (hf : s.fault = .none) :
    execAll [.invalidate, .render] s = .next (redraw s.markDirty.complete).complete := by
  simp [execAll, exec_invalidate_ready s hf, exec_render_dirty s.markDirty.complete hf rfl]

/-- Settles O47: INVALIDATE marks the display dirty, so that the RENDER redraws it. -/
theorem invalidateForcesTheNextRedraw : Obligations.InvalidateForcesTheNextRedraw :=
  ⟨decodeOfEncodeIsIdentity .invalidate rfl, fun s hf =>
    ⟨exec_invalidate_ready s hf, _, framebuffer s.build s.mtx s.icn, execAll_invalidate_render s hf, rfl⟩⟩

/-! ## What a command does to the display -/

/-- The part of the state that the compositor's rules speak of (10_state.md R22 to R25), the history aside. -/
structure Display where
  build : Build
  mtx : Matrix
  icn : List Bool
  dirty : Bool
  fb : Option (List Bool)

def State.display (s : State) : Display := ⟨s.build, s.mtx, s.icn, s.dirty, s.fb⟩

theorem redraws_append (h new : List Event) : redraws (h ++ new) = redraws h + redraws new := by
  simp [redraws]

/-- `t` has the display of `s`, and what has been emitted in between shows no redraw. -/
def State.KeepsDisplay (s t : State) : Prop :=
  t.display = s.display ∧ ∃ new : List Event, t.history = s.history ++ new ∧ redraws new = 0

theorem State.KeepsDisplay.silent {s t : State} (hd : t.display = s.display) (hh : t.history = s.history) :
    s.KeepsDisplay t := ⟨hd, [], by simp [hh], rfl⟩

theorem State.KeepsDisplay.event {s t : State} (e : Event) (he : redraws [e] = 0) (hd : t.display = s.display)
    (hh : t.history = s.history ++ [e]) : s.KeepsDisplay t := ⟨hd, [e], hh, he⟩

theorem State.KeepsDisplay.dirty_eq {s t : State} (h : s.KeepsDisplay t) : t.dirty = s.dirty :=
  congrArg Display.dirty h.1

theorem State.KeepsDisplay.redraws_eq {s t : State} (h : s.KeepsDisplay t) : redraws t.history = redraws s.history := by
  obtain ⟨-, new, hh, hn⟩ := h
  rw [hh, redraws_append, hn, Nat.add_zero]

theorem State.HostActed.keepsDisplay {s t : State} (h : s.HostActed t) : s.KeepsDisplay t := by
  obtain ⟨_, _, rfl⟩ := h
  exact .silent rfl rfl

theorem transcode_keepsDisplay (group len : Nat) (result : List Byte → Event) (hr : ∀ bytes, redraws [result bytes] = 0)
    {s t : State} (h : transcode group len result s = .next t) : s.KeepsDisplay t := by
  rcases transcode_next group len result s t h with ⟨-, rfl⟩ | ⟨-, -, rfl⟩
  · exact .silent rfl rfl
  · exact .event (result (s.input.take len)) (hr _) rfl rfl

theorem saveState_keepsDisplay (s : State) : s.KeepsDisplay (saveState s) := by
  rw [saveState_frame]
  exact .silent rfl rfl

theorem loadState_keepsDisplay (s : State) : s.KeepsDisplay (loadState s) := by
  rcases loadState_cases s with ⟨-, e⟩ | ⟨-, -, e⟩ | ⟨_, -, -, -, e⟩ | ⟨_, -, -, -, -, e⟩ <;> rw [e]
  · exact .silent rfl rfl
  · exact .silent rfl rfl
  · exact .silent rfl rfl
  · exact .event .coreRefresh rfl rfl rfl

/-- The three things a command can do to the display: keep it and show no redraw; mark it dirty and emit nothing, when it is one of
the commands of R175; or redraw it, when it is a RENDER and the display was dirty. -/
inductive State.DisplayEffect (i : Instr) (s t : State) : Prop where
  | kept (h : s.KeepsDisplay t)
  | marked (hi : marksDirty s.build i = true) (hd : t.dirty = true) (hh : t.history = s.history)
  | redrawn (hi : i = .render) (hd : s.dirty = true) (ht : t = (redraw s).complete)

theorem Instr.after_displayEffect (i : Instr) (s : State) : State.DisplayEffect i s (Instr.after i s) := by
  cases i with
  | pack len => exact .kept (.silent rfl rfl)
  | unpack len => exact .kept (.silent rfl rfl)
  | save => exact .kept (saveState_keepsDisplay s)
  | load => exact .kept (loadState_keepsDisplay s)
  | setPixel x y val =>
    rcases pixelWrite_cases x y val s with ⟨hin, e⟩ | ⟨-, e⟩ <;> rw [Instr.after, e]
    · exact .marked hin rfl rfl
    · exact .kept (.silent rfl rfl)
  | setIcon n val =>
    rcases iconWrite_cases n val s with ⟨hin, e⟩ | ⟨-, e⟩ <;> rw [Instr.after, e]
    · exact .marked hin rfl rfl
    · exact .kept (.silent rfl rfl)
  | render =>
    cases hd : s.dirty with
    | true => exact .redrawn rfl hd (by rw [Instr.after, hd, if_pos rfl])
    | false => exact .kept (by rw [Instr.after, hd, if_neg Bool.false_ne_true]; exact .silent rfl rfl)
  | invalidate => exact .marked rfl rfl rfl
  | halt => exact .kept (.silent rfl rfl)

theorem exec_displayEffect (i : Instr) {s t : State} (h : exec i s = .next t) : State.DisplayEffect i s t := by
  rcases exec_next i s t h with ⟨-, rfl⟩ | ⟨-, ⟨len, -, ht⟩ | ⟨len, -, ht⟩ | ⟨-, -, rfl⟩⟩
  · exact .kept (.silent rfl rfl)
  · exact .kept (transcode_keepsDisplay _ _ _ (fun _ => rfl) ht)
  · exact .kept (transcode_keepsDisplay _ _ _ (fun _ => rfl) ht)
  · exact Instr.after_displayEffect i s

/-! ## The dirty-flag invariant (R177) -/

theorem displayInvariant_of_dirty {s : State} (hd : s.dirty = true) : DisplayInvariant s := by
  intro hclean
  rw [hd] at hclean
  cases hclean

/-- The invariant looks at the display, and at the history for one event, which stays there. -/
theorem State.KeepsDisplay.displayInvariant {s t : State} (h : s.KeepsDisplay t) (hs : DisplayInvariant s) :
    DisplayInvariant t := by
  have hd : t.dirty = s.dirty := h.dirty_eq
  obtain ⟨hdisplay, new, hh, -⟩ := h
  have hb : t.build = s.build := congrArg Display.build hdisplay
  have hm : t.mtx = s.mtx := congrArg Display.mtx hdisplay
  have hi : t.icn = s.icn := congrArg Display.icn hdisplay
  have hf : t.fb = s.fb := congrArg Display.fb hdisplay
  unfold DisplayInvariant
  rw [hb, hm, hi, hd, hf, hh]
  intro hclean
  obtain ⟨cells, hfb, hmem, hcells⟩ := hs hclean
  exact ⟨cells, hfb, List.mem_append_left new hmem, hcells⟩

theorem redraw_complete_displayInvariant (s : State) : DisplayInvariant (redraw s).complete := fun _ =>
  ⟨framebuffer s.build s.mtx s.icn, rfl, List.mem_append_right _ (List.mem_singleton_self _),
    framebuffer_matrix s.build s.mtx s.icn, framebuffer_icon s.build s.mtx s.icn⟩

theorem exec_displayInvariant (i : Instr) {s t : State} (hs : DisplayInvariant s) (h : exec i s = .next t) :
    DisplayInvariant t := by
  cases exec_displayEffect i h with
  | kept hk => exact hk.displayInvariant hs
  | marked _ hd _ => exact displayInvariant_of_dirty hd
  | redrawn _ _ ht => exact ht ▸ redraw_complete_displayInvariant s

theorem step_displayInvariant {s t : State} (hs : DisplayInvariant s) (h : step s = .next t) : DisplayInvariant t := by
  rcases step_cases s t h with ⟨-, rfl⟩ | ⟨cw, stream, d, rest, i, -, -, he⟩ | ⟨cw, stream, d, rest, r, -, -, rfl⟩ |
    ⟨rest, -, rfl⟩ | ⟨cw, d, written, rest, -, rfl⟩ | ⟨cs, rest, -, rfl⟩ | ⟨a, rest, -, rfl⟩
  · exact hs
  · exact exec_displayInvariant i (s := { s with pending := rest, input := stream, draws := d }) hs he
  · exact hs
  · exact displayInvariant_of_dirty rfl
  · exact displayInvariant_of_dirty rfl
  · exact hs
  · exact (hostAct_hostActed a { s with pending := rest }).keepsDisplay.displayInvariant hs

/-- Settles O50: reset leaves `DIRTY` set, and a step keeps the display, marks it dirty or redraws it; INVALIDATE after RENDER marks
dirty a display that `FB` agrees with. -/
theorem dirtyFlagInvariantHolds : Obligations.DirtyFlagInvariantHolds :=
  ⟨fun _ => displayInvariant_of_dirty rfl, fun _ _ => step_displayInvariant, fun _ => ⟨_, rfl, rfl, rfl⟩⟩

/-! ## Sequences of commands (R175, R176) -/

theorem execAll_cons_next {i : Instr} {is : List Instr} {s t : State} (h : execAll (i :: is) s = .next t) :
    ∃ u, exec i s = .next u ∧ execAll is u = .next t := by
  rw [execAll] at h
  split at h
  next u hu => exact ⟨u, hu, h⟩
  next => cases h
  next => cases h

/-- What each command of a sequence keeps, the sequence keeps. -/
theorem execAll_induct {P : State → Prop} {is : List Instr}
    (hP : ∀ i ∈ is, ∀ s t : State, P s → exec i s = .next t → P t) {s t : State} (hs : P s) (h : execAll is s = .next t) :
    P t := by
  induction is generalizing s with
  | nil => cases h; exact hs
  | cons i is ih =>
    obtain ⟨u, hu, h⟩ := execAll_cons_next h
    exact ih (fun j hj => hP j (List.mem_cons_of_mem i hj)) (hP i List.mem_cons_self s u hs hu) h

/-- A RENDER has nothing to redraw: the display is not dirty, or the block is halted. -/
def State.RenderIdle (s : State) : Prop := s.fault = .none → s.dirty = false

theorem exec_render_idle {s t : State} (h : exec .render s = .next t) : t.RenderIdle := by
  intro hf
  by_cases hready : s.fault = .none
  · cases hd : s.dirty with
    | true => rw [exec_render_dirty s hready hd] at h; cases h; rfl
    | false => rw [exec_render_clean s hready hd] at h; cases h; exact hd
  · rw [exec_discarded .render s hready] at h
    cases h
    exact absurd hf hready

/-- Without one of the commands of R175 there is nothing new to redraw. -/
theorem exec_keeps_renderIdle (i : Instr) {s t : State} (hi : marksDirty s.build i = false) (hs : s.RenderIdle)
    (h : exec i s = .next t) : t.RenderIdle := by
  intro hf
  by_cases hready : s.fault = .none
  · cases exec_displayEffect i h with
    | kept hk => exact hk.dirty_eq.trans (hs hready)
    | marked hmark _ _ => rw [hi] at hmark; cases hmark
    | redrawn _ _ ht => exact ht ▸ rfl
  · rw [exec_discarded i s hready] at h
    cases h
    exact absurd hf hready

theorem exec_render_of_idle {s t : State} (hs : s.RenderIdle) (h : exec .render s = .next t) :
    t = { s with status := t.status } := by
  by_cases hf : s.fault = .none
  · rw [exec_render_clean s hf (hs hf)] at h
    cases h
    rfl
  · rw [exec_discarded .render s hf] at h
    cases h
    rfl

/-- Settles O48: the first RENDER leaves nothing to redraw, and the commands after it keep it so. -/
theorem secondRenderIsANoOp : Obligations.SecondRenderIsANoOp := by
  intro is s t u v hmarks hrender his hagain
  have hbuild : t.build = s.build := (exec_keeps_environment .render s t hrender).1
  have hidle : u.build = s.build ∧ u.RenderIdle := by
    refine execAll_induct (P := fun w => w.build = s.build ∧ w.RenderIdle) ?_ ⟨hbuild, exec_render_idle hrender⟩ his
    rintro i hi w w' ⟨hb, hw⟩ h
    exact ⟨(exec_keeps_environment i w w' h).1.trans hb, exec_keeps_renderIdle i (hb ▸ hmarks i hi) hw h⟩
  exact exec_render_of_idle hidle.2 hagain

/-- Only RENDER redraws. -/
theorem exec_redraws_of_ne_render (i : Instr) (hi : i ≠ .render) {s t : State} (h : exec i s = .next t) :
    redraws t.history = redraws s.history := by
  cases exec_displayEffect i h with
  | kept hk => exact hk.redraws_eq
  | marked _ _ hh => rw [hh]
  | redrawn hr _ _ => exact absurd hr hi

/-- RENDER emits nothing, or one redraw of the matrix and the icons as they stand. -/
theorem exec_render_history {s t : State} (h : exec .render s = .next t) :
    t.history = s.history ∨ t.history = s.history ++ [.redraw (framebuffer s.build s.mtx s.icn)] := by
  rcases exec_next_of_not_codec .render nofun nofun h with rfl | rfl
  · exact .inl rfl
  · cases hd : s.dirty with
    | true => exact .inr (by rw [Instr.after, hd, if_pos rfl]; rfl)
    | false => exact .inl (by rw [Instr.after, hd, if_neg Bool.false_ne_true]; rfl)

theorem exec_redraws_le (i : Instr) {s t : State} (h : exec i s = .next t) :
    redraws t.history ≤ redraws s.history + renders [i] := by
  by_cases hi : i = .render
  · subst hi
    rcases exec_render_history h with e | e <;> rw [e]
    · exact Nat.le_add_right _ _
    · exact (redraws_append _ _).le
  · rw [exec_redraws_of_ne_render i hi h]
    exact Nat.le_add_right _ _

theorem renders_cons (i : Instr) (is : List Instr) : renders (i :: is) = renders [i] + renders is := by
  simp only [renders, ← List.length_append, ← List.filter_append, List.singleton_append]

theorem execAll_redraws_le (is : List Instr) {s t : State} (h : execAll is s = .next t) :
    redraws t.history ≤ redraws s.history + renders is := by
  induction is generalizing s with
  | nil => cases h; exact Nat.le_refl _
  | cons i is ih =>
    obtain ⟨u, hu, h⟩ := execAll_cons_next h
    calc redraws t.history ≤ redraws u.history + renders is := ih h
      _ ≤ redraws s.history + renders [i] + renders is := Nat.add_le_add_right (exec_redraws_le i hu) _
      _ = redraws s.history + renders (i :: is) := by rw [Nat.add_assoc, ← renders_cons]

/-- Settles O49: each RENDER adds at most one redraw, of the state it finds, and no other command adds any. -/
theorem redrawsAreAtMostRenders : Obligations.RedrawsAreAtMostRenders := by
  refine ⟨fun is s t h => execAll_redraws_le is h, fun is s t u hne h hrender => ⟨?_, exec_render_history hrender⟩⟩
  refine execAll_induct (P := fun w => redraws w.history = redraws s.history) ?_ rfl h
  exact fun i hi w w' hw hx => (exec_redraws_of_ne_render i (hne i hi) hx).trans hw

end Sys2Proof.Machine

/-! # Proofs: resume from `Paused` -/

namespace Sys2Proof.Machine

/-! ## Resume (44_host_session.md R209) -/

theorem adjustVolume_eq_withSession (key : PollKey) (s : State) : ∃ σ, adjustVolume key s = s.withSession σ := by
  cases key <;> exact ⟨_, rfl⟩

theorem pollPaused_of_other (s : State) : pollPaused .other false s = hostResume s := rfl

theorem pollPaused_of_help (key : PollKey) (s : State) (hb : s.build.helpFromPaused = false) :
    pollPaused key true s = hostResume (adjustVolume key s) := by
  simp [pollPaused, hb]

/-- A poll in `Paused` that finds a non-volume key, or a press of Help in the variant where Help is one, resumes; apart from that it
has changed the session at most. -/
theorem hostPoll_resumes (key : PollKey) (help : Bool) (s : State) (hm : s.session.mode = .paused)
    (hkey : (key = .other ∧ (help = false ∨ s.session.polledHelp = true)) ∨
      (help = true ∧ s.session.polledHelp = false ∧ s.build.helpFromPaused = false)) :
    ∃ σ, hostPoll key help s = hostResume (s.withSession σ) := by
  have hpoll : hostPoll key help s = pollPaused key (rising s.session.polledHelp help) (s.pollHelpLine help) := by
    simp [hostPoll, hm]
  rw [hpoll]
  rcases hkey with ⟨rfl, hheld⟩ | ⟨rfl, hp, hb⟩
  · have hrose : rising s.session.polledHelp help = false := by rcases hheld with h | h <;> simp [rising, h]
    rw [hrose, pollPaused_of_other]
    exact ⟨_, rfl⟩
  · have hrose : rising s.session.polledHelp true = true := by simp [rising, hp]
    obtain ⟨σ, hσ⟩ := adjustVolume_eq_withSession key (s.pollHelpLine true)
    rw [hrose, pollPaused_of_help key (s.pollHelpLine true) hb, hσ]
    exact ⟨σ, rfl⟩

/-- The step of an act of a host that has not stopped. -/
theorem step_host (a : HostAct) (rest : List Stimulus) (s : State) (hf : s.fault = .none)
    (hp : s.pending = .host a :: rest) : step s = .next (hostDo a { s with pending := rest }) := by
  rw [step_of_pending s _ rest hp, respond]
  rcases hostAct_cases a { s with pending := rest } with ⟨-, e⟩ | ⟨hstopped, -⟩
  · rw [e]
  · exact absurd hf hstopped

/-- The two steps in which a presented INVALIDATE and RENDER force a redraw. -/
theorem core_run_forced_redraw (d : Draws) (rest : List Stimulus) (s : State) (hf : s.fault = .none)
    (hp : s.pending = presenting .invalidate [] d :: presenting .render [] d :: rest) :
    Sys2Proof.core.run 2 s = .next { s with
      fb := some (framebuffer s.build s.mtx s.icn), dirty := false, status := .ok, input := [], draws := d
      history := s.history ++ [.redraw (framebuffer s.build s.mtx s.icn)], pending := rest } := by
  have hinvalidate := (step_presenting .invalidate [] d _ s rfl hp).trans (exec_invalidate_ready _ hf)
  rw [core_run_succ 1 hinvalidate]
  exact core_run_succ 0 ((step_presenting .render [] d rest _ rfl rfl).trans (exec_render_dirty _ hf rfl))

/-- Settles O58: the poll orders INVALIDATE and RENDER, which force the redraw of what the block holds, and then the tick. -/
theorem resumeForcesAFullRedraw : Obligations.ResumeForcesAFullRedraw := by
  intro s key help rest hf hm hp hkey
  obtain ⟨σ, hresume⟩ := hostPoll_resumes key help { s with pending := rest } hm hkey
  have hpoll := step_host (.poll key help) rest s hf hp
  rw [hostDo, hresume] at hpoll
  refine ⟨_, (core_run_succ 2 hpoll).trans (core_run_forced_redraw s.draws (.host .proceed :: rest) _ hf rfl), ?_⟩
  exact ⟨rfl, rfl, rfl, rfl, rfl, rfl, rfl⟩

end Sys2Proof.Machine

/-! # Proofs: HALT and the halted block -/

namespace Sys2Proof.Machine

/-! ## HALT (43_system.md R190) -/

theorem exec_halt_ready (s : State) (hf : s.fault = .none) : exec .halt s = .next (s.raise .coreHalt) :=
  exec_ready .halt s hf nofun nofun

/-- Settles O53: an accepted HALT raises `CoreHalt`, whose latch is `CORE_HALT`; a halted block discards it. -/
theorem haltLatchesCoreHalt : Obligations.HaltLatchesCoreHalt :=
  ⟨decodeOfEncodeIsIdentity .halt rfl, rfl, rfl, fun s => ⟨exec_halt_ready s, exec_discarded .halt s⟩⟩

/-! ## What one stimulus does to a halted block (R192) -/

/-- A presented command word, defined or reserved, is discarded: it leaves its stream and its draws at hand and no other trace. -/
theorem respond_command_of_halted (cw : CmdWord) (stream : List Byte) (d : Draws) (s : State) (hf : s.fault ≠ .none) :
    respond (.command cw stream d) s = .next (s.present stream d) := by
  have hpresent : (s.present stream d).fault ≠ .none := hf
  rcases runCommand_cases cw stream d s with ⟨i, -, e⟩ | ⟨r, -, e⟩ <;> rw [respond, e]
  · exact exec_discarded i _ hpresent
  · exact accept_halted _ _ hpresent

/-- Of the stimuli that are no reset, a command word is discarded, the core changes its own record only, and the host has stopped
(44_host_session.md R215). -/
theorem respond_of_halted (st : Stimulus) (s : State) (hf : s.fault ≠ .none) (hr : st.isReset = false) :
    ∃ cs stream d, respond st s = .next { s with cs := cs, input := stream, draws := d } := by
  cases st with
  | command cw stream d => exact ⟨s.cs, stream, d, respond_command_of_halted cw stream d s hf⟩
  | reset => cases hr
  | resetDuring cw d written => cases hr
  | core cs => exact ⟨cs, s.input, s.draws, rfl⟩
  | host a =>
    rcases hostAct_cases a s with ⟨hready, -⟩ | ⟨-, e⟩
    · exact absurd hready hf
    · exact ⟨s.cs, s.input, s.draws, congrArg Host.Outcome.next e⟩

/-! ## Runs -/

theorem core_run_succ_next {k : Nat} {s t : State} (h : Sys2Proof.core.run (k + 1) s = .next t) :
    ∃ u, step s = .next u ∧ Sys2Proof.core.run k u = .next t := by
  simp only [Host.Core.run] at h
  split at h
  next u hu => exact ⟨u, hu, h⟩
  next => cases h
  next => cases h

/-- What every step keeps, a run of any length keeps. -/
theorem core_run_induct {P : State → Prop} (hP : ∀ s t : State, P s → step s = .next t → P t) {n : Nat} {s t : State}
    (hs : P s) (h : Sys2Proof.core.run n s = .next t) : P t := by
  induction n generalizing s with
  | zero => cases h; exact hs
  | succ k ih =>
    obtain ⟨u, hu, h⟩ := core_run_succ_next h
    exact ih (hP s u hs hu) h

/-- The run over a queue of command words alone discards them one by one. -/
theorem core_run_commands_of_halted (q : List Stimulus) (s : State) (hq : s.pending = q) (hf : s.fault ≠ .none)
    (hc : ∀ st ∈ q, st.isCommand = true) :
    ∃ stream d, Sys2Proof.core.run q.length s = .next { s with pending := [], input := stream, draws := d } := by
  induction q generalizing s with
  | nil => exact ⟨s.input, s.draws, congrArg Host.Outcome.next (by rw [← hq])⟩
  | cons st rest ih =>
    obtain ⟨hst, hrest⟩ := List.forall_mem_cons.1 hc
    cases st with
    | command cw stream d =>
      have hstep : step s = .next ({ s with pending := rest }.present stream d) :=
        (step_of_pending s _ rest hq).trans (respond_command_of_halted cw stream d _ hf)
      obtain ⟨stream', d', hrun⟩ := ih ({ s with pending := rest }.present stream d) rfl hf hrest
      exact ⟨stream', d', (core_run_succ rest.length hstep).trans hrun⟩
    | _ => cases hst

/-- Settles O11: the commands are discarded one by one, and the last leaves its stream and its draws at hand. -/
theorem haltedBlockDiscardsEveryCommand : Obligations.HaltedBlockDiscardsEveryCommand := by
  intro s hf hc
  obtain ⟨stream, d, hrun⟩ := core_run_commands_of_halted s.pending s rfl hf (List.all_eq_true.1 hc)
  exact ⟨_, hrun, rfl⟩

/-! ## Until reset (70_reset_and_hazards.md R261) -/

/-- No reset is among the pending stimuli. -/
def State.NoResetPending (s : State) : Prop := s.pending.all (fun st => !st.isReset) = true

/-- `t` is `s` with another record of the core, another stream, other draws, and the front of the queue taken: all a run without reset
can change while the block is halted. -/
def State.BlockUntouched (s t : State) : Prop :=
  ∃ cs stream d q, q <:+ s.pending ∧ t = { s with cs := cs, input := stream, draws := d, pending := q }

theorem State.BlockUntouched.same (s : State) : s.BlockUntouched s :=
  ⟨s.cs, s.input, s.draws, s.pending, List.suffix_rfl, rfl⟩

theorem State.NoResetPending.isReset_of_suffix {s : State} {st : Stimulus} {rest : List Stimulus} (h : s.NoResetPending)
    (hq : st :: rest <:+ s.pending) : st.isReset = false := by
  simpa using List.all_eq_true.1 h st (hq.subset List.mem_cons_self)

/-- One more step takes the next stimulus off the queue, which is no reset, and still leaves the block untouched. -/
theorem State.BlockUntouched.step {s t u : State} (hf : s.fault ≠ .none) (hr : s.NoResetPending)
    (h : s.BlockUntouched t) (hu : step t = .next u) : s.BlockUntouched u := by
  obtain ⟨cs, stream, d, q, hq, rfl⟩ := h
  cases q with
  | nil =>
    rw [step_of_idle _ rfl] at hu
    cases hu
    exact ⟨cs, stream, d, [], hq, rfl⟩
  | cons st rest =>
    rw [step_of_pending _ st rest rfl] at hu
    obtain ⟨cs', stream', d', e⟩ := respond_of_halted st
      { s with cs := cs, input := stream, draws := d, pending := rest } hf (hr.isReset_of_suffix hq)
    rw [e] at hu
    cases hu
    exact ⟨cs', stream', d', rest, (List.suffix_cons st rest).trans hq, rfl⟩

/-- A run of any length from a halted state, no reset pending, leaves the block and `FILE` as they were. -/
theorem core_run_blockUntouched {n : Nat} {s t : State} (hf : s.fault ≠ .none) (hr : s.NoResetPending)
    (h : Sys2Proof.core.run n s = .next t) : s.BlockUntouched t :=
  core_run_induct (P := s.BlockUntouched) (fun _ _ => State.BlockUntouched.step hf hr) (.same s) h

/-- Settles O12: along the run only the core's record, the stream, the draws and the queue change. -/
theorem haltedBlockStaysHaltedUntilReset : Obligations.HaltedBlockStaysHaltedUntilReset := by
  intro n s t hf hr h
  obtain ⟨cs, stream, d, q, -, rfl⟩ := core_run_blockUntouched hf hr h
  exact ⟨rfl, rfl, rfl, rfl, rfl, rfl, rfl, rfl, rfl⟩

/-- Settles O54: HALT changes `STATUS` and `FAULT` only, and the run after it leaves the block untouched. -/
theorem haltFreezesTheDisplay : Obligations.HaltFreezesTheDisplay := by
  intro s t u n hf ht hr h
  rw [exec_halt_ready s hf] at ht
  cases ht
  have hhalted : (s.raise .coreHalt).fault ≠ .none := nofun
  obtain ⟨cs, stream, d, q, -, rfl⟩ := core_run_blockUntouched hhalted hr h
  exact ⟨rfl, rfl, rfl, rfl, rfl⟩

end Sys2Proof.Machine

/-! # Proofs: the host's session -/

namespace Sys2Proof.Machine

/-! ## The acts of the tick, by mode (44_host_session.md R201, R205, R212) -/

theorem hostTick_of_running (k : Tick) (s : State) (hm : s.session.mode = .running) :
    hostTick k s = (s.withSession (s.session.tick s.build k)).order [.host .proceed] := by
  simp [hostTick, hm]

theorem hostTick_of_blocked (k : Tick) (s : State) (hm : s.session.mode ≠ .running) : hostTick k s = s := by
  unfold hostTick
  split
  · contradiction
  all_goals rfl

theorem hostProceed_of_cons (a : SessionAct) (more : List SessionAct) (s : State) (hm : s.session.mode = .running)
    (ha : s.session.agenda = a :: more) :
    hostProceed s = beginAct a (s.withSession { s.session with agenda := more }) := by
  simp [hostProceed, hm, ha]

theorem hostProceed_of_nil (s : State) (hm : s.session.mode = .running) (ha : s.session.agenda = []) :
    hostProceed s = (s.withSession { s.session with held := [] }).order (s.session.held.map Stimulus.host) := by
  simp [hostProceed, hm, ha]

theorem hostProceed_of_blocked (s : State) (hm : s.session.mode ≠ .running) : hostProceed s = s := by
  unfold hostProceed
  split
  · contradiction
  all_goals rfl

theorem whileRunning_of_blocked (l : List Stimulus) (s : State) (hm : s.session.mode ≠ .running) :
    whileRunning l s = s := by
  unfold whileRunning
  split
  · contradiction
  all_goals rfl

/-! ## A host that is blocked or stopped (R212, R215) -/

theorem hostAct_of_stopped (a : HostAct) (s : State) (hf : s.fault ≠ .none) : hostAct a s = s := by
  rcases hostAct_cases a s with ⟨hready, -⟩ | ⟨-, e⟩
  · exact absurd hready hf
  · exact e

theorem hostAct_of_hostDo_same (a : HostAct) (s : State) (h : hostDo a s = s) : hostAct a s = s := by
  rcases hostAct_cases a s with ⟨-, e⟩ | ⟨-, e⟩
  · exact e.trans h
  · exact e

/-- Settles O57: a stopped host ignores every act, and the four acts of a tick do nothing outside `Running`. -/
theorem blockedOrStoppedHostMakesNoProgress : Obligations.BlockedOrStoppedHostMakesNoProgress := by
  intro s a rest hp
  have hstep : step s = .next (hostAct a { s with pending := rest }) := step_of_pending s _ rest hp
  refine ⟨fun hf => ?_, fun hm ha => ?_⟩
  · rw [hstep, hostAct_of_stopped a { s with pending := rest } hf]
  · have hdo : hostDo a { s with pending := rest } = { s with pending := rest } := by
      rcases ha with rfl | ⟨k, rfl⟩ | ⟨acts, d, rfl⟩ | ⟨d, rfl⟩
      · exact hostProceed_of_blocked _ hm
      · exact hostTick_of_blocked k _ hm
      · exact whileRunning_of_blocked _ _ hm
      · exact whileRunning_of_blocked _ _ hm
    rw [hstep, hostAct_of_hostDo_same a _ hdo]

/-! ## The session actions of a tick (R204, R206, R207, R209, R210) -/

theorem rising_eq_true_iff (before now : Bool) : rising before now = true ↔ before = false ∧ now = true := by
  simp [rising]

theorem rising_eq_false_iff (before now : Bool) : rising before now = false ↔ now = false ∨ before = true := by
  cases before <;> simp [rising]

theorem Session.sample_acts_save (b : Build) (keys : Buttons) (σ : Session) :
    (σ.sample keys).acts b .save = (!σ.current.save && keys.save) := by
  simp [Session.acts, Buttons.line, Buttons.rising, rising]

theorem Session.sample_acts_pause (b : Build) (keys : Buttons) (σ : Session) :
    (σ.sample keys).acts b .pause = (!σ.current.pause && keys.pause) := by
  simp [Session.acts, Buttons.line, Buttons.rising, rising]

theorem Session.sample_acts_help (b : Build) (keys : Buttons) (σ : Session) :
    (σ.sample keys).acts b .help = (!σ.current.help && keys.help && !b.helpFromPaused) := by
  simp [Session.acts, Buttons.line, Buttons.rising, rising]

/-- A SAVE of a tick comes with the answers the tick brings. -/
theorem Tick.draws_of_save_mem_actions (b : Build) (k : Tick) (σ : Session) (d : Draws)
    (h : SessionAct.save d ∈ k.actions b σ) : d = k.draws := by
  obtain ⟨l, -, hl⟩ := List.mem_map.1 h
  cases l with
  | save => cases hl; rfl
  | pause => cases hl
  | help => cases hl

/-- Settles O56: a tick appends its actions, which hold one for each line that acts; each is then begun in its turn. -/
theorem tickServesEachRisingEdgeOnce : Obligations.TickServesEachRisingEdgeOnce := by
  refine ⟨fun s k rest hf hm hp => ?_, fun s rest hf hm hp => ?_⟩
  · have hcount := k.count_actions s.build (s.session.sample k.keys)
    have hstep := step_host (.tick k) rest s hf hp
    rw [hostDo, hostTick_of_running k { s with pending := rest } hm] at hstep
    refine ⟨_, k.actions s.build (s.session.sample k.keys), hstep, rfl, hm, rfl, rfl, rfl, rfl, rfl, rfl, rfl, ?save,
      fun d hd h => hd (k.draws_of_save_mem_actions _ _ d h), ?pause, ?help⟩
    case save => exact Session.sample_acts_save .. ▸ hcount .save
    case pause => exact Session.sample_acts_pause .. ▸ hcount .pause
    case help => exact Session.sample_acts_help .. ▸ hcount .help
  · have hstep := step_host .proceed rest s hf hp
    rw [hostDo] at hstep
    refine ⟨fun d more ha => ?_, fun more ha => ?_, fun more ha => ?_, fun ha => ?_⟩
    · rw [hstep, hostProceed_of_cons (.save d) more { s with pending := rest } hm ha]
      rfl
    · rw [hstep, hostProceed_of_cons .pause more { s with pending := rest } hm ha]
      rfl
    · rw [hstep, hostProceed_of_cons .help more { s with pending := rest } hm ha]
      rfl
    · rw [hstep, hostProceed_of_nil { s with pending := rest } hm ha]
      rfl

/-! ## The volume (R209) -/

theorem volumeRaised_toNat (clamps : Bool) (v : BitVec 8) :
    (volumeRaised clamps v).toNat = if v.toNat + 10 ≤ 255 then v.toNat + 10 else if clamps then 255 else v.toNat := by
  unfold volumeRaised
  split
  · bv_omega
  · split <;> rfl

theorem volumeLowered_toNat (clamps : Bool) (v : BitVec 8) :
    (volumeLowered clamps v).toNat = if 10 ≤ v.toNat then v.toNat - 10 else if clamps then 0 else v.toNat := by
  unfold volumeLowered
  split
  · bv_omega
  · split <;> rfl

/-- A key found by a poll in `Paused` changes the level, if anything. -/
theorem adjustVolume_eq_setVolume (key : PollKey) (s : State) :
    adjustVolume key s = s.setVolume (adjustVolume key s).session.volume := by
  cases key <;> rfl

/-- Whatever else a poll in `Paused` does, its key leaves the level it adjusts to. -/
theorem pollPaused_volume (key : PollKey) (rose : Bool) (s : State) :
    (pollPaused key rose s).session.volume = (adjustVolume key s).session.volume := by
  unfold pollPaused
  split
  · split <;> rfl
  · split
    · subst key; rfl
    · rfl

theorem pollPaused_of_not_other (key : PollKey) (s : State) (hk : key ≠ .other) :
    pollPaused key false s = adjustVolume key s := by
  simp [pollPaused, hk]

theorem hostPoll_of_paused (key : PollKey) (help : Bool) (s : State) (hm : s.session.mode = .paused) :
    hostPoll key help s = pollPaused key (rising s.session.polledHelp help) (s.pollHelpLine help) := by
  simp [hostPoll, hm]

/-- The step of a poll in `Paused` that finds no key or a volume key: the level is the adjusted one, and with no press of Help nothing
else changes but the polled Help line. -/
theorem step_poll_paused (key : PollKey) (help : Bool) (rest : List Stimulus) (s : State) (hk : key ≠ .other)
    (hf : s.fault = .none) (hm : s.session.mode = .paused) (hp : s.pending = .host (.poll key help) :: rest) :
    ∃ t, step s = .next t ∧
      t.session.volume = (adjustVolume key ({ s with pending := rest }.pollHelpLine help)).session.volume ∧
      (help = false ∨ s.session.polledHelp = true → t = { s with
        pending := rest, session := { s.session with volume := t.session.volume, polledHelp := help } }) := by
  have hstep := step_host (.poll key help) rest s hf hp
  rw [hostDo, hostPoll_of_paused key help { s with pending := rest } hm] at hstep
  refine ⟨_, hstep, pollPaused_volume .., fun hheld => ?_⟩
  rw [(rising_eq_false_iff _ _).2 hheld, pollPaused_of_not_other key _ hk]
  exact adjustVolume_eq_setVolume key _

/-- Settles O60: the poll's key adjusts the level by one step of 10, kept in 0..255 as the build has it. -/
theorem volumeMovesByTenWithinBounds : Obligations.VolumeMovesByTenWithinBounds := by
  refine fun s help rest hf hm => ⟨fun hp => ?_, fun hp => ?_⟩
  · obtain ⟨t, hstep, hv, hframe⟩ := step_poll_paused .volumeUp help rest s nofun hf hm hp
    exact ⟨t, hstep, (congrArg BitVec.toNat hv).trans (volumeRaised_toNat _ _), hframe⟩
  · obtain ⟨t, hstep, hv, hframe⟩ := step_poll_paused .volumeDown help rest s nofun hf hm hp
    exact ⟨t, hstep, (congrArg BitVec.toNat hv).trans (volumeLowered_toNat _ _), hframe⟩

/-! ## How each act of the host moves the mode (R205 to R211) -/

theorem hostLoadReturned_mode (s : State) : (hostLoadReturned s).session.mode = s.session.mode := by
  unfold hostLoadReturned
  split <;> rfl

theorem whileRunning_mode (l : List Stimulus) (s : State) : (whileRunning l s).session.mode = s.session.mode := by
  unfold whileRunning
  split <;> rfl

theorem hostTick_mode (k : Tick) (s : State) : (hostTick k s).session.mode = s.session.mode := by
  unfold hostTick
  split <;> rfl

/-- The mode a session action blocks the host in. -/
def SessionAct.mode : SessionAct → Mode
  | .save _ => .saveInProgress
  | .pause => .paused
  | .help => .helpOverlay

theorem beginAct_mode (a : SessionAct) (s : State) : (beginAct a s).session.mode = a.mode := by
  cases a <;> rfl

/-- The tick goes on without a change of mode, or with the next session action. -/
theorem hostProceed_mode (s : State) :
    (hostProceed s).session.mode = s.session.mode ∨
    (s.session.mode = .running ∧
      ∃ a more, s.session.agenda = a :: more ∧ (hostProceed s).session.mode = a.mode) := by
  by_cases hm : s.session.mode = .running
  · cases ha : s.session.agenda with
    | nil => exact .inl (by rw [hostProceed_of_nil s hm ha]; rfl)
    | cons a more =>
      exact .inr ⟨hm, a, more, rfl, by rw [hostProceed_of_cons a more s hm ha, beginAct_mode]⟩
  · exact .inl (by rw [hostProceed_of_blocked s hm])

theorem hostSaveReturned_mode (s : State) :
    (hostSaveReturned s).session.mode = s.session.mode ∨
    (s.session.mode = .saveInProgress ∧ (hostSaveReturned s).session.mode = .running) := by
  unfold hostSaveReturned
  split
  · exact .inr ⟨‹_›, rfl⟩
  all_goals exact .inl rfl

theorem adjustVolume_mode (key : PollKey) (s : State) : (adjustVolume key s).session.mode = s.session.mode := by
  cases key <;> rfl

theorem pollPaused_mode (key : PollKey) (rose : Bool) (s : State) :
    (pollPaused key rose s).session.mode = s.session.mode ∨ (pollPaused key rose s).session.mode = .running ∨
    ((pollPaused key rose s).session.mode = .helpOverlay ∧ s.build.helpFromPaused = true ∧ rose = true) := by
  unfold pollPaused
  split
  · split
    · exact .inr (.inr ⟨rfl, ‹_›, ‹_›⟩)
    · exact .inr (.inl rfl)
  · split
    · exact .inr (.inl rfl)
    · exact .inl (adjustVolume_mode key s)

theorem pollOverlay_mode (key : PollKey) (rose : Bool) (s : State) :
    (pollOverlay key rose s).session.mode = s.session.mode ∨
    (pollOverlay key rose s).session.mode = if s.build.helpFromPaused then .paused else .running := by
  unfold pollOverlay
  split
  · exact .inl rfl
  · split <;> exact .inr rfl

/-- A poll moves the mode in the two overlays only: resume or Help from `Paused`, and the return from Help. -/
theorem hostPoll_mode (key : PollKey) (help : Bool) (s : State) :
    (hostPoll key help s).session.mode = s.session.mode ∨
    (s.session.mode = .paused ∧ ((hostPoll key help s).session.mode = .running ∨
      ((hostPoll key help s).session.mode = .helpOverlay ∧ s.build.helpFromPaused = true ∧
        s.session.polledHelp = false ∧ help = true))) ∨
    (s.session.mode = .helpOverlay ∧
      (hostPoll key help s).session.mode = if s.build.helpFromPaused then .paused else .running) := by
  unfold hostPoll
  split
  · rename_i hm
    rcases pollPaused_mode key (rising s.session.polledHelp help) (s.pollHelpLine help) with h | h | ⟨h, hb, hrose⟩
    · exact .inl h
    · exact .inr (.inl ⟨hm, .inl h⟩)
    · exact .inr (.inl ⟨hm, .inr ⟨h, hb, (rising_eq_true_iff _ _).1 hrose⟩⟩)
  · rename_i hm
    rcases pollOverlay_mode key (rising s.session.polledHelp help) (s.pollHelpLine help) with h | h
    · exact .inl h
    · exact .inr (.inr ⟨hm, h⟩)
  all_goals exact .inl rfl

/-! ## The step and the session -/

@[simp] theorem abandon_session (cw : CmdWord) (d : Draws) (written : Option Nat) (s : State) :
    (abandon cw d written s).session = s.session := by
  rcases abandon_cases cw d written s with e | ⟨_, -, -, -, -, -, e⟩ <;> simp [e]

/-- Only an act of a host that has not stopped changes the session (43_system.md R194, 44_host_session.md R215). -/
theorem step_session_cases (s t : State) (h : step s = .next t) :
    t.session = s.session ∨
    ∃ a rest, s.pending = .host a :: rest ∧ t = hostDo a { s with pending := rest } := by
  rcases step_cases s t h with ⟨-, rfl⟩ | ⟨cw, stream, d, rest, i, -, -, he⟩ | ⟨cw, stream, d, rest, r, -, -, rfl⟩ |
    ⟨rest, -, rfl⟩ | ⟨cw, d, written, rest, -, rfl⟩ | ⟨cs, rest, -, rfl⟩ | ⟨a, rest, hp, rfl⟩
  · exact .inl rfl
  · obtain ⟨-, -, -, hsession⟩ := exec_keeps_environment i _ t he
    exact .inl hsession
  · exact .inl rfl
  · exact .inl rfl
  · exact .inl (by simp)
  · exact .inl rfl
  · rcases hostAct_cases a { s with pending := rest } with ⟨-, e⟩ | ⟨-, e⟩ <;> rw [e]
    · exact .inr ⟨a, rest, hp, rfl⟩
    · exact .inl rfl

/-- Settles O59: only the host moves the mode, and each of its acts as its own lemma says; that the agenda of a well-formed session
holds Help in one variant only gives that arc its variant. -/
theorem hostModeMovesOnlyAsDescribed : Obligations.HostModeMovesOnlyAsDescribed := by
  intro s t hwf h
  rcases step_session_cases s t h with e | ⟨a, rest, hp, rfl⟩
  · exact .inl (congrArg Session.mode e)
  cases a with
  | boot rom packed init d => exact .inr (.inr (.inr (.inr (.inr ⟨rfl, rom, packed, init, d, rest, hp⟩))))
  | loadReturned => exact .inl (hostLoadReturned_mode _)
  | tick k => exact .inl (hostTick_mode k _)
  | proceed =>
    rcases hostProceed_mode { s with pending := rest } with hm | ⟨hm, a, more, ha, hmode⟩
    · exact .inl hm
    refine .inr (.inl ⟨hm, ⟨rest, hp⟩, ?_⟩)
    cases a with
    | save d => exact .inl ⟨hmode, d, more, ha⟩
    | pause => exact .inr (.inl ⟨hmode, more, ha⟩)
    | help =>
      obtain ⟨-, henv⟩ := s.wf_iff.1 hwf
      obtain ⟨-, hhelp⟩ := (Session.wf_iff _ _).1 henv.session
      have hmem : SessionAct.help ∈ s.session.agenda := ha ▸ List.mem_cons_self
      exact .inr (.inr ⟨hmode, Bool.eq_false_iff.2 fun hb => hhelp hb hmem, more, ha⟩)
  | coreStep acts d => exact .inl (whileRunning_mode _ _)
  | renderDue d => exact .inl (whileRunning_mode _ _)
  | saveReturned =>
    rcases hostSaveReturned_mode { s with pending := rest } with hm | hm
    · exact .inl hm
    · exact .inr (.inr (.inl hm))
  | poll key help =>
    rcases hostPoll_mode key help { s with pending := rest } with hm | ⟨hm, hrun | ⟨hov, hb, hpolled, rfl⟩⟩ | hm
    · exact .inl hm
    · exact .inr (.inr (.inr (.inl ⟨hm, .inl hrun⟩)))
    · exact .inr (.inr (.inr (.inl ⟨hm, .inr ⟨hov, hb, hpolled, key, rest, hp⟩⟩)))
    · exact .inr (.inr (.inr (.inr (.inl hm))))

end Sys2Proof.Machine

/-! # Proofs: raising a status, and what a command that fails leaves -/

namespace Sys2Proof.Machine

/-! ## Raising a status (60_exceptions.md R233, R243) -/

/-- Settles O13: `raise` writes two registers, and what it latches is one of the three cases of `latch`. -/
theorem raiseWritesStatusAndFaultOnly : Obligations.RaiseWritesStatusAndFaultOnly := by
  intro st s
  refine ⟨rfl, ?_⟩
  rw [State.raise_fault]
  rcases st.latch_cases s.fault with ⟨rfl, e⟩ | ⟨rfl, e⟩ | ⟨hm, hc, e⟩
  · exact ⟨fun _ => e, nofun, fun hm _ => absurd rfl hm⟩
  · exact ⟨nofun, fun _ => e, fun _ hc => absurd rfl hc⟩
  · exact ⟨fun h => absurd h hm, fun h => absurd h hc, fun _ _ => e⟩

/-! ## Precision (R244) -/

/-- If `t`, in which a command accepted in `s` ends, reports a failure, then it differs from `s` in `STATUS`, `FAULT` and `STG`
only, and in `FILE` when the failure is `WriteFailure`. -/
def State.FailsPrecisely (s t : State) : Prop :=
  t.status ≠ .ok →
    t = { s with status := t.status, fault := t.fault, stg := t.stg, file := t.file } ∧
    (t.status ≠ .writeFailure → t.file = s.file)

/-- A command that completes reports no failure, whatever it did before. -/
theorem State.FailsPrecisely.complete {s : State} (u : State) : s.FailsPrecisely u.complete := fun h => absurd rfl h

theorem State.FailsPrecisely.raise (s : State) (st : Status) : s.FailsPrecisely (s.raise st) := fun _ => ⟨rfl, fun _ => rfl⟩

theorem transcode_failsPrecisely (group len : Nat) (result : List Byte → Event) {s t : State}
    (h : transcode group len result s = .next t) : s.FailsPrecisely t := by
  rcases transcode_next group len result s t h with ⟨-, rfl⟩ | ⟨-, -, rfl⟩
  · exact .raise s _
  · exact .complete _

/-- SAVE writes `FILE` at its last two ends: the one completes, the other is `WriteFailure`. -/
theorem saveState_failsPrecisely (s : State) : s.FailsPrecisely (saveState s) := by
  rcases saveState_cases s with ⟨-, e⟩ | ⟨-, -, e⟩ | ⟨-, -, -, e⟩ | ⟨-, -, -, e⟩ <;> rw [e]
  · exact .raise s _
  · exact .raise s _
  · exact .complete _
  · exact fun _ => ⟨rfl, fun hw => absurd rfl hw⟩

/-- A blob that LOAD cannot commit stays in the staging buffer. -/
theorem loadState_failsPrecisely (s : State) : s.FailsPrecisely (loadState s) := by
  rcases loadState_cases s with ⟨-, e⟩ | ⟨-, -, e⟩ | ⟨_, -, -, -, e⟩ | ⟨_, -, -, -, -, e⟩ <;> rw [e]
  · exact .raise s _
  · exact .raise s _
  · exact fun _ => ⟨rfl, fun _ => rfl⟩
  · exact .complete _

theorem Instr.after_failsPrecisely (i : Instr) (s : State) (hp : ∀ len, i ≠ .pack len) (hu : ∀ len, i ≠ .unpack len) :
    s.FailsPrecisely (Instr.after i s) := by
  cases i with
  | pack len => exact absurd rfl (hp len)
  | unpack len => exact absurd rfl (hu len)
  | save => exact saveState_failsPrecisely s
  | load => exact loadState_failsPrecisely s
  | setPixel x y val => exact .complete _
  | setIcon n val => exact .complete _
  | render => exact .complete _
  | invalidate => exact .complete _
  | halt => exact .raise s _

/-- Settles O16: an accepted command is a transcoding or leaves `Instr.after`, and either fails precisely. -/
theorem failingCommandChangesNothingElse : Obligations.FailingCommandChangesNothingElse := by
  intro i s t hf h
  rcases exec_next i s t h with ⟨hset, -⟩ | ⟨-, ⟨len, -, ht⟩ | ⟨len, -, ht⟩ | ⟨hp, hu, rfl⟩⟩
  · exact absurd hf hset
  · exact transcode_failsPrecisely _ _ _ ht
  · exact transcode_failsPrecisely _ _ _ ht
  · exact Instr.after_failsPrecisely i s hp hu

/-! ## Which commands set `FAULT` (R231) -/

/-- PACK and UNPACK set `FAULT` for a bad length only. -/
theorem transcode_sets_fault (group len : Nat) (result : List Byte → Event) {s t : State} (hf : s.fault = .none)
    (h : transcode group len result s = .next t) (hset : t.fault ≠ .none) : t.fault = .malformedRom ∧ len % group ≠ 0 := by
  rcases transcode_next group len result s t h with ⟨hbad, rfl⟩ | ⟨-, -, rfl⟩
  · exact ⟨rfl, hbad⟩
  · exact absurd hf hset

/-- HALT apart, no status that these commands raise is terminal. -/
theorem Instr.after_fault (i : Instr) (s : State) (hi : i ≠ .halt) : (Instr.after i s).fault = s.fault := by
  cases i with
  | pack len => rfl
  | unpack len => rfl
  | save => rw [Instr.after, saveState_frame]
  | load => rw [Instr.after, loadState_frame]
  | setPixel x y val => rcases pixelWrite_cases x y val s with ⟨-, e⟩ | ⟨-, e⟩ <;> simp [Instr.after, e]
  | setIcon n val => rcases iconWrite_cases n val s with ⟨-, e⟩ | ⟨-, e⟩ <;> simp [Instr.after, e]
  | render => cases hd : s.dirty <;> simp [Instr.after, hd, redraw]
  | invalidate => rfl
  | halt => exact absurd rfl hi

/-- Settles O55: a transcoding sets `FAULT` for a bad length only, and of the other commands HALT alone sets it. -/
theorem onlyTerminalStatusesSetFault : Obligations.OnlyTerminalStatusesSetFault := by
  intro i s t hf h hset
  rcases exec_next i s t h with ⟨hnone, -⟩ | ⟨-, ⟨len, hi, ht⟩ | ⟨len, hi, ht⟩ | ⟨-, -, rfl⟩⟩
  · exact absurd hf hnone
  · obtain ⟨hm, hbad⟩ := transcode_sets_fault _ _ _ hf ht hset
    exact .inl ⟨hm, .inl ⟨len, hi, hbad⟩⟩
  · obtain ⟨hm, hbad⟩ := transcode_sets_fault _ _ _ hf ht hset
    exact .inl ⟨hm, .inr ⟨len, hi, hbad⟩⟩
  · by_cases hi : i = .halt
    · subst hi
      exact .inr ⟨rfl, rfl⟩
    · exact absurd ((Instr.after_fault i s hi).trans hf) hset

end Sys2Proof.Machine
